-- ==== Sys2Proof/Word.lean ====
section
/-! DEFINITION. The byte, the byte sequence, the 8-byte payload and the exact fixed-point value of the spec. -/

namespace Sys2Proof

/-- An unsigned 8-bit integer (R1). -/
abbrev Byte := BitVec 8

/-- A finite byte sequence of any length (R1, R27). -/
abbrev Bytes := List Byte

/-- A `Bytes` of length exactly 8 (R27), by its bytes `p[0]` to `p[7]`. -/
structure Payload where
  b0 : Byte
  b1 : Byte
  b2 : Byte
  b3 : Byte
  b4 : Byte
  b5 : Byte
  b6 : Byte
  b7 : Byte
  deriving DecidableEq, Repr

/-- `Fixed(m, k)`: mantissa and decimal scale exponent, denoting exactly `m × 10^(-k)` (R5). -/
structure Fixed where
  mantissa : Int
  exponent : Nat
  deriving DecidableEq, Repr

end Sys2Proof
end

