-- ==== Sys2Proof/Syntax.lean ====
section
/-! DEFINITION. The nine commands, what a host presents, and `Instr`: one constructor for each of the 31 rows of
spec/opcode_table.json (22 of format OPSEL8, R70; 9 of format WIRE_CMD, R64). -/

namespace Sys2Proof

/-- The nine logical commands (R64), in the order of their wire codes. -/
inductive Command where
  | stateOfCharge
  | cellVoltageLimits
  | cellTemperatureLimits
  | mosfetStatus
  | status
  | cellVoltages
  | temperatures
  | balanceStates
  | failures
  deriving DecidableEq, Repr

/-- The two formats of the opcode table: an OPSEL value selects an operation of the block (R70), a command code names
what the host asks of the BMS (R64). DEDUCED, log 5: the two selector spaces are kept apart. -/
inductive Format where
  | opsel
  | wireCmd
  deriving DecidableEq, Repr

/-- What the host presents at once: a selector byte and the operand bytes after it (95_test_vectors.md L3: "An operation
is its OPSEL byte followed by its operands in the order of 30_encoding.md rule R70"). Its end is the end of its last
operand (DESIGN CHOICE, log 4). -/
structure Presentation where
  format : Format
  bytes : Bytes
  deriving DecidableEq, Repr

/-- One constructor per row of the opcode table, with the operands of R70 in R70's order.
`k` and `idx` are carried as whole bytes, a model "whose `idx` is wider than 3 bits" (R125, R128; log 14). -/
inductive Instr where
  | encReq (code : Byte)
  | chksum (B : Bytes)
  | decFrame (F : Bytes)
  | decAuth (F : Bytes)
  | u16be (h l : Byte)
  | u32be (b0 b1 b2 b3 : Byte)
  | scaled (h l k : Byte)
  | offscaled (h l : Byte) (off : BitVec 16) (k : Byte)
  | offbyte (raw off : Byte)
  | bit (v idx : Byte)
  | framecount (code n : Byte)
  | reasm (P : List Payload) (N : Nat)
  | rxResponse (code n : Byte) (RXB : Bytes)
  | pSoc (p : Payload)
  | pCvlim (p : Payload)
  | pCtlim (p : Payload)
  | pMosfet (p : Payload)
  | pStatus (p : Payload)
  | pCellv (S : Bytes) (n : Byte)
  | pCellt (S : Bytes) (n : Byte)
  | pBal (p : Payload) (n : Byte)
  | pFail (p : Payload)
  | cmdStateOfCharge
  | cmdCellVoltageLimits
  | cmdCellTemperatureLimits
  | cmdMosfetStatus
  | cmdStatus
  | cmdCellVoltages (n : Byte)
  | cmdTemperatures (n : Byte)
  | cmdBalanceStates (n : Byte)
  | cmdFailures
  deriving DecidableEq, Repr

end Sys2Proof
end

