-- ==== Sys2Proof/Decode.lean ====
section
/-! DEFINITION. The command codes, the decoder (total on any bytes, rejecting by name) and the encoder.
The layout of operands beyond "in the order of R70" is a DESIGN CHOICE (log 4): how operands reach the block "is not
specified and is not observable in the model" (R28). -/

namespace Sys2Proof

/-- The wire code of a command (R64). -/
def Command.code : Command → Byte
  | .stateOfCharge => 0x90#8
  | .cellVoltageLimits => 0x91#8
  | .cellTemperatureLimits => 0x92#8
  | .mosfetStatus => 0x93#8
  | .status => 0x94#8
  | .cellVoltages => 0x95#8
  | .temperatures => 0x96#8
  | .balanceStates => 0x97#8
  | .failures => 0x98#8

/-- The command a code stands for (R64); none outside `KNOWN` (R65, R73). -/
def commandOf (c : Byte) : Option Command :=
  if c = 0x90#8 then some .stateOfCharge
  else if c = 0x91#8 then some .cellVoltageLimits
  else if c = 0x92#8 then some .cellTemperatureLimits
  else if c = 0x93#8 then some .mosfetStatus
  else if c = 0x94#8 then some .status
  else if c = 0x95#8 then some .cellVoltages
  else if c = 0x96#8 then some .temperatures
  else if c = 0x97#8 then some .balanceStates
  else if c = 0x98#8 then some .failures
  else none

/-- `c ∈ KNOWN` (R65). -/
def known (c : Byte) : Bool := (commandOf c).isSome

/-- The payload's bytes in index order. -/
def Payload.bytes (p : Payload) : Bytes := [p.b0, p.b1, p.b2, p.b3, p.b4, p.b5, p.b6, p.b7]

/-- A payload from exactly eight bytes. -/
def payloadOf : Bytes → Option Payload
  | [b0, b1, b2, b3, b4, b5, b6, b7] => some ⟨b0, b1, b2, b3, b4, b5, b6, b7⟩
  | _ => none

/-- A list of payloads from a sequence of whole 8-byte groups. -/
def payloadsOf : Bytes → Option (List Payload)
  | [] => some []
  | b0 :: b1 :: b2 :: b3 :: b4 :: b5 :: b6 :: b7 :: rest =>
    (payloadsOf rest).map (⟨b0, b1, b2, b3, b4, b5, b6, b7⟩ :: ·)
  | _ => none

/-- The operand `N` of REASM, any natural number (R71), read from the END of the operand bytes: `r` is those bytes
reversed. Groups of seven bits, the last byte the least significant; a byte with bit 7 set has a more significant group
before it. A leading group of zero is no encoding, so each number has one. Answers the number and the bytes before it. -/
def countFromEnd : Bytes → Option (Nat × Bytes)
  | [] => none
  | b :: rest =>
    if b.toNat < 128 then some (b.toNat, rest)
    else
      match countFromEnd rest with
      | some (0, _) => none
      | some (v, before) => some (128 * v + (b.toNat - 128), before)
      | none => none

/-- The groups of `n`, least significant first, for `countFromEnd`; `fuel` bounds their number (`n + 1` is enough). -/
def countGroups : Nat → Nat → Bytes
  | 0, n => [BitVec.ofNat 8 n]
  | fuel + 1, n =>
    if n < 128 then [BitVec.ofNat 8 n] else BitVec.ofNat 8 (n % 128 + 128) :: countGroups fuel (n / 128)

/-- Operand bytes of exactly one, two, three, four or five bytes, or one payload. -/
def operand1 (f : Byte → Instr) : Bytes → Option Instr
  | [a] => some (f a)
  | _ => none

/-- See `operand1`. -/
def operand2 (f : Byte → Byte → Instr) : Bytes → Option Instr
  | [a, b] => some (f a b)
  | _ => none

/-- See `operand1`. -/
def operand3 (f : Byte → Byte → Byte → Instr) : Bytes → Option Instr
  | [a, b, c] => some (f a b c)
  | _ => none

/-- See `operand1`. -/
def operand4 (f : Byte → Byte → Byte → Byte → Instr) : Bytes → Option Instr
  | [a, b, c, d] => some (f a b c d)
  | _ => none

/-- See `operand1`. -/
def operand5 (f : Byte → Byte → Byte → Byte → Byte → Instr) : Bytes → Option Instr
  | [a, b, c, d, e] => some (f a b c d e)
  | _ => none

/-- No operand bytes at all. -/
def operand0 (i : Instr) : Bytes → Option Instr
  | [] => some i
  | _ => none

/-- Two bytes and then a byte sequence. -/
def operand2ThenBytes (f : Byte → Byte → Bytes → Instr) : Bytes → Option Instr
  | a :: b :: rest => some (f a b rest)
  | _ => none

/-- One payload and nothing after it. -/
def operandPayload (f : Payload → Instr) (a : Bytes) : Option Instr := (payloadOf a).map f

/-- A byte sequence and then one byte, the last. -/
def operandBytesThenByte (f : Bytes → Byte → Instr) (a : Bytes) : Option Instr :=
  a.getLast?.map (f a.dropLast)

/-- One payload and then one byte. -/
def operandPayloadThenByte (f : Payload → Byte → Instr) (a : Bytes) : Option Instr :=
  a.getLast?.bind fun n => (payloadOf a.dropLast).map fun p => f p n

/-- Whole payloads and then a number. -/
def operandPayloadsThenCount (f : List Payload → Nat → Instr) (a : Bytes) : Option Instr :=
  match countFromEnd a.reverse with
  | some (N, before) => (payloadsOf before.reverse).map fun P => f P N
  | none => none

/-- The row of R70's table that an OPSEL value selects: how its operand bytes are read. None for a reserved value (R72). -/
def opselRow (op : Byte) : Option (Bytes → Option Instr) :=
  if op = 0x01#8 then some (operand1 .encReq)
  else if op = 0x02#8 then some fun a => some (.chksum a)
  else if op = 0x03#8 then some fun a => some (.decFrame a)
  else if op = 0x04#8 then some fun a => some (.decAuth a)
  else if op = 0x10#8 then some (operand2 .u16be)
  else if op = 0x11#8 then some (operand4 .u32be)
  else if op = 0x12#8 then some (operand3 .scaled)
  else if op = 0x13#8 then some (operand5 fun h l oh ol k => .offscaled h l (oh ++ ol) k)
  else if op = 0x14#8 then some (operand2 .offbyte)
  else if op = 0x15#8 then some (operand2 .bit)
  else if op = 0x20#8 then some (operand2 .framecount)
  else if op = 0x21#8 then some (operandPayloadsThenCount .reasm)
  else if op = 0x22#8 then some (operand2ThenBytes .rxResponse)
  else if op = 0x30#8 then some (operandPayload .pSoc)
  else if op = 0x31#8 then some (operandPayload .pCvlim)
  else if op = 0x32#8 then some (operandPayload .pCtlim)
  else if op = 0x33#8 then some (operandPayload .pMosfet)
  else if op = 0x34#8 then some (operandPayload .pStatus)
  else if op = 0x35#8 then some (operandBytesThenByte .pCellv)
  else if op = 0x36#8 then some (operandBytesThenByte .pCellt)
  else if op = 0x37#8 then some (operandPayloadThenByte .pBal)
  else if op = 0x38#8 then some (operandPayload .pFail)
  else none

/-- The wire command of a code, with the count `n` where the command or its profile takes one (R64; log 7). -/
def commandRow : Command → Bytes → Option Instr
  | .stateOfCharge => operand0 .cmdStateOfCharge
  | .cellVoltageLimits => operand0 .cmdCellVoltageLimits
  | .cellTemperatureLimits => operand0 .cmdCellTemperatureLimits
  | .mosfetStatus => operand0 .cmdMosfetStatus
  | .status => operand0 .cmdStatus
  | .cellVoltages => operand1 .cmdCellVoltages
  | .temperatures => operand1 .cmdTemperatures
  | .balanceStates => operand1 .cmdBalanceStates
  | .failures => operand0 .cmdFailures

/-- Why a presentation is no instruction. -/
inductive DecodeError where
  /-- An OPSEL value outside the table of R70 (R72). -/
  | reservedOpsel (opsel : Byte)
  /-- A command code outside `KNOWN` (R73). -/
  | reservedCode (code : Byte)
  /-- No selector byte. -/
  | noSelector
  /-- The bytes after the selector are not the selector's operands: one is missing, too many, or outside its type (R203). -/
  | operands (selector : Byte)
  deriving DecidableEq, Repr

/-- The decoder: total on any presentation. -/
def decode (p : Presentation) : Except DecodeError Instr :=
  match p.format, p.bytes with
  | _, [] => .error .noSelector
  | .opsel, op :: a =>
    match opselRow op with
    | none => .error (.reservedOpsel op)
    | some row =>
      match row a with
      | none => .error (.operands op)
      | some i => .ok i
  | .wireCmd, c :: a =>
    match commandOf c with
    | none => .error (.reservedCode c)
    | some cmd =>
      match commandRow cmd a with
      | none => .error (.operands c)
      | some i => .ok i

/-- The encoder: the presentation of an instruction, selector first, operands in the order of R70. -/
def encode : Instr → Presentation
  | .encReq code => ⟨.opsel, [0x01#8, code]⟩
  | .chksum B => ⟨.opsel, 0x02#8 :: B⟩
  | .decFrame F => ⟨.opsel, 0x03#8 :: F⟩
  | .decAuth F => ⟨.opsel, 0x04#8 :: F⟩
  | .u16be h l => ⟨.opsel, [0x10#8, h, l]⟩
  | .u32be b0 b1 b2 b3 => ⟨.opsel, [0x11#8, b0, b1, b2, b3]⟩
  | .scaled h l k => ⟨.opsel, [0x12#8, h, l, k]⟩
  | .offscaled h l off k => ⟨.opsel, [0x13#8, h, l, off.extractLsb' 8 8, off.extractLsb' 0 8, k]⟩
  | .offbyte raw off => ⟨.opsel, [0x14#8, raw, off]⟩
  | .bit v idx => ⟨.opsel, [0x15#8, v, idx]⟩
  | .framecount code n => ⟨.opsel, [0x20#8, code, n]⟩
  | .reasm P N => ⟨.opsel, 0x21#8 :: (P.flatMap Payload.bytes ++ (countGroups (N + 1) N).reverse)⟩
  | .rxResponse code n rxb => ⟨.opsel, 0x22#8 :: code :: n :: rxb⟩
  | .pSoc p => ⟨.opsel, 0x30#8 :: p.bytes⟩
  | .pCvlim p => ⟨.opsel, 0x31#8 :: p.bytes⟩
  | .pCtlim p => ⟨.opsel, 0x32#8 :: p.bytes⟩
  | .pMosfet p => ⟨.opsel, 0x33#8 :: p.bytes⟩
  | .pStatus p => ⟨.opsel, 0x34#8 :: p.bytes⟩
  | .pCellv S n => ⟨.opsel, 0x35#8 :: (S ++ [n])⟩
  | .pCellt S n => ⟨.opsel, 0x36#8 :: (S ++ [n])⟩
  | .pBal p n => ⟨.opsel, 0x37#8 :: (p.bytes ++ [n])⟩
  | .pFail p => ⟨.opsel, 0x38#8 :: p.bytes⟩
  | .cmdStateOfCharge => ⟨.wireCmd, [0x90#8]⟩
  | .cmdCellVoltageLimits => ⟨.wireCmd, [0x91#8]⟩
  | .cmdCellTemperatureLimits => ⟨.wireCmd, [0x92#8]⟩
  | .cmdMosfetStatus => ⟨.wireCmd, [0x93#8]⟩
  | .cmdStatus => ⟨.wireCmd, [0x94#8]⟩
  | .cmdCellVoltages n => ⟨.wireCmd, [0x95#8, n]⟩
  | .cmdTemperatures n => ⟨.wireCmd, [0x96#8, n]⟩
  | .cmdBalanceStates n => ⟨.wireCmd, [0x97#8, n]⟩
  | .cmdFailures => ⟨.wireCmd, [0x98#8]⟩

/-- How many operand bytes the shortest presentation with this selector has. -/
def shortestOperands (f : Format) (sel : Byte) : Nat :=
  match f with
  | .opsel =>
    if sel = 0x01#8 ∨ sel = 0x21#8 ∨ sel = 0x35#8 ∨ sel = 0x36#8 then 1
    else if sel = 0x10#8 ∨ sel = 0x14#8 ∨ sel = 0x15#8 ∨ sel = 0x20#8 ∨ sel = 0x22#8 then 2
    else if sel = 0x12#8 then 3
    else if sel = 0x11#8 then 4
    else if sel = 0x13#8 then 5
    else if sel = 0x37#8 then 9
    else if sel = 0x30#8 ∨ sel = 0x31#8 ∨ sel = 0x32#8 ∨ sel = 0x33#8 ∨ sel = 0x34#8 ∨ sel = 0x38#8 then 8
    else 0
  | .wireCmd => if sel = 0x95#8 ∨ sel = 0x96#8 ∨ sel = 0x97#8 then 1 else 0

/-- The format of the opcode table's row with this `match` value: the nine command codes are the WIRE_CMD rows. -/
def tableFormat (sel : Byte) : Format := if known sel then .wireCmd else .opsel

/-- The bytes of a table word, first byte first. -/
def wordBytes : Nat → Nat → Bytes
  | 0, _ => []
  | k + 1, w => BitVec.ofNat 8 w :: wordBytes k (w / 256)

/-- The presentation of a table word of `nbits` bits, numbered as spec/opcode_table.json numbers them, with every operand
byte the word does not reach zero. -/
def tablePresentation (nbits w : Nat) : Presentation :=
  let sel : Byte := BitVec.ofNat 8 w
  let given := wordBytes (nbits / 8) w
  ⟨tableFormat sel, given ++ List.replicate (1 + shortestOperands (tableFormat sel) sel - given.length) 0#8⟩

/-- The instruction the decoder reads from a table word. -/
def decodeTableWord (nbits w : Nat) : Option Instr :=
  match decode (tablePresentation nbits w) with
  | .ok i => some i
  | .error _ => none

end Sys2Proof
end

