-- ==== Sys2Proof/Machine/Results.lean ====
section
/-! DEFINITION. What an operation ends with: the frame, the response records, the error kinds and the outcome (R26, R27,
R60, R200, 44_response_profiles.md). -/

namespace Sys2Proof.Machine

/-- A frame by its fields (R60): `start(1) | address(1) | commandCode(1) | payloadLength(1) | payload(8) | checksum(1)`. -/
structure Frame where
  start : Byte
  address : Byte
  commandCode : Byte
  payloadLength : Byte
  payload : Payload
  checksum : Byte
  deriving DecidableEq, Repr

/-- What DEC_FRAME returns (R102). -/
structure DecodedFrame where
  code : Byte
  addr : Byte
  payload : Payload
  deriving DecidableEq, Repr

/-- StateOfCharge (R160). -/
structure StateOfCharge where
  totalVoltage : Fixed
  gatherVoltage : Fixed
  current : Fixed
  stateOfCharge : Fixed
  deriving DecidableEq, Repr

/-- CellVoltageLimits (R161); the indices are raw bytes. -/
structure CellVoltageLimits where
  maxVoltage : Fixed
  maxVoltageCellIndex : Byte
  minVoltage : Fixed
  minVoltageCellIndex : Byte
  deriving DecidableEq, Repr

/-- CellTemperatureLimits (R162); the indices are raw bytes. -/
structure CellTemperatureLimits where
  maxTemp : Int
  maxTempCellIndex : Byte
  minTemp : Int
  minTempCellIndex : Byte
  deriving DecidableEq, Repr

/-- The status enum of MosfetStatus (R163). -/
inductive ChargeState where
  | idle
  | charging
  | discharging
  deriving DecidableEq, Repr

/-- MosfetStatus (R163); bytes 1 to 3 raw, the capacity an integer 0..4294967295. -/
structure MosfetStatus where
  status : ChargeState
  chargeMosfetStatus : Byte
  dischargeMosfetStatus : Byte
  heartbeat : Byte
  remainingCapacity : Int
  deriving DecidableEq, Repr

/-- StatusInformation (R164), with `di = [di1, di2, di3, di4]` and `do = [do1, do2, do3, do4]`. -/
structure StatusInformation where
  cellCount : Byte
  temperatureSensorCount : Byte
  chargerConnected : Bool
  loadConnected : Bool
  di1 : Bool
  di2 : Bool
  di3 : Bool
  di4 : Bool
  do1 : Bool
  do2 : Bool
  do3 : Bool
  do4 : Bool
  deriving DecidableEq, Repr

/-- FailureStatus (R165): the 56 flags by index, the 64-bit backing word, the raw fault code. -/
structure FailureStatus where
  flags : List Bool
  word : BitVec 64
  faultCode : Byte
  deriving DecidableEq, Repr

/-- A typed response record, one constructor per profile. -/
inductive Response where
  | stateOfCharge (r : StateOfCharge)
  | cellVoltageLimits (r : CellVoltageLimits)
  | cellTemperatureLimits (r : CellTemperatureLimits)
  | mosfetStatus (r : MosfetStatus)
  | statusInformation (r : StatusInformation)
  | cellVoltages (cells : List Fixed)
  | cellTemperatures (sensors : List Int)
  | balanceStates (cells : List Bool)
  | failureStatus (r : FailureStatus)
  deriving DecidableEq, Repr

/-- The error kinds (R200). -/
inductive ErrorKind where
  | lengthMismatch
  | checksumMismatch
  | headerMismatch
  | incompleteFrames
  | invalidEnumValue
  | invalidResponseLength
  /-- "never raised by DFC": the host's own, in the same numbering. -/
  | transmitFailed
  deriving DecidableEq, Repr

/-- The result `v` of an `Ok(v)`, by the result column of R70. -/
inductive Result where
  | frame (f : Frame)
  | byte (b : Byte)
  | decoded (d : DecodedFrame)
  | authenticated (code : Byte) (payload : Payload)
  | int (v : Int)
  | fixed (v : Fixed)
  | bool (b : Bool)
  | stream (S : Bytes)
  | record (r : Response)
  deriving DecidableEq, Repr

/-- The two outcomes that answer (R26). The third, `Refused`, is no state: it is the step's refusal. An error carries its
kind and nothing else (R201). -/
inductive OpOutcome where
  | ok (v : Result)
  | err (e : ErrorKind)
  deriving DecidableEq, Repr

end Sys2Proof.Machine
end

