-- ==== Sys2Proof/Machine/State.lean ====
section
/-! DEFINITION. State, the reasons a step can stop, and the state after reset. -/

namespace Sys2Proof.Machine

/-- A configuration register (R21, R22). `unset` is the spec's own state of it: after reset the registers "hold no value"
and "a model must treat them as unset" (R220, R31). Not a missing reset value (log 1). -/
inductive CfgReg where
  | unset
  | set (value : Byte)
  deriving DecidableEq, Repr

/-- The configuration indices of 10_state.md section 2: CFG0 is `CONN_ADDR`, CFG1 is `DEV_ADDR`. -/
inductive CfgIndex where
  | connAddr
  | devAddr
  deriving DecidableEq, Repr

/-- What the host does next. -/
inductive HostAction where
  /-- Set a configuration register: no operation, never faults (R213, R75 `.cfg`). -/
  | cfg (r : CfgIndex) (v : Byte)
  /-- Assert reset (R220), with the bytes of an operation then in flight, if any (log 17). -/
  | reset (inFlight : Option Bytes)
  /-- Present an operation or a wire command (R47). -/
  | present (p : Presentation)
  deriving DecidableEq, Repr

/-- What the environment does in one exchange (R225, U15, U18): the byte count the transport reports as written, the bytes
that arrive before the read ends, how many bytes a read that times out has taken, and the bytes that arrive after the read
and before the exchange ends (log 9, log 10). -/
structure LinkEvent where
  written : Nat
  reply : Bytes
  takenByTimeout : Nat
  late : Bytes
  deriving DecidableEq, Repr

/-- The host's count cache (R29): the pair, with the device address it is scoped to. -/
structure CountCache where
  device : Byte
  cellCount : Byte
  temperatureSensorCount : Byte
  deriving DecidableEq, Repr

/-- Why an exchange failed: an error kind (R200), or the transport's own timeout, which is no error kind (R225 step 4). -/
inductive ExchangeFailure where
  | error (e : ErrorKind)
  | timeout
  deriving DecidableEq, Repr

/-- The host's states in an exchange (R225). Between two exchanges the last one's `decoded` or `failed` stands, and `idle`
only before the first (DESIGN CHOICE, log 28). -/
inductive ExchangePhase where
  | idle
  | requestSent
  | awaitingResponse
  | decoded (r : Response)
  | failed (f : ExchangeFailure)
  deriving DecidableEq, Repr

/-- No fault exists: DFC "has no traps" and no operation faults (R205, R208, R213). An error kind is an outcome and the
machine goes on (log 24). -/
inductive Fault where
  deriving DecidableEq, Repr

/-- The refusals (R203): "a model must produce neither a result nor an error". Each is safe: it stops where the spec gives
no meaning. -/
inductive Refusal where
  /-- An instruction without a meaning. Raised by an arm of exec only. Safe. -/
  | notModelled (mnemonic : String)
  /-- The presentation is no instruction: a reserved OPSEL (R72), a reserved code (R73), or operands that are missing,
  surplus or outside their type (R203). Raised by step. Safe. -/
  | undecoded (e : DecodeError)
  /-- A code outside `KNOWN` as operand of ENC_REQ, FRAMECOUNT or RX_RESPONSE (R73). Raised by their meanings. Safe. -/
  | unknownCode (code : Byte)
  /-- A scale exponent above 3 (R128). Raised by SCALED and OFFSCALED. Safe. -/
  | exponentOutsideType (k : Byte)
  /-- `CONN_ADDR` read before the host set it (R203, R221, U2, D24). Raised by ENC_REQ and the wire commands. Safe. -/
  | connAddrUnset
  /-- `DEV_ADDR` read before the host set it (R203, R221, U2, D24). Raised by DEC_AUTH, RX_RESPONSE and the wire commands. Safe. -/
  | devAddrUnset
  deriving DecidableEq, Repr

/-- Everything the spec gives the machine: the block's configuration (R21 to R23), its interface (R26, R28, R47), and the
host and the link around it (R29, R223, R225). INVENTORY.md lists each field with its rule and reset value. -/
structure State where
  /-- CFG0. -/
  connAddr : CfgReg
  /-- CFG1. -/
  devAddr : CfgReg
  /-- `CELLV_PAD_SKIP` (R23): fixed for a run (log 12). -/
  cellvPadSkip : Bool
  /-- The outcome presented for the action just performed (R26); no operation reads it (log 3). After a wire command it is
  that of the last operation the exchange performed (log 26). -/
  outcome : Option OpOutcome
  /-- The host's actions still to come, first one first (R47). -/
  pending : List HostAction
  /-- The host's exchange (R225); between exchanges, how the last one ended (log 28). -/
  exchange : ExchangePhase
  /-- The host's count cache (R29). -/
  countCache : Option CountCache
  /-- Bytes waiting on the link, oldest first (R41). -/
  linkRx : Bytes
  /-- Bytes the transport has accepted, oldest first. -/
  linkTx : Bytes
  /-- What the environment does in the coming exchanges. -/
  linkEvents : List LinkEvent
  deriving DecidableEq, Repr

/-- The machine right after reset (R31, R220): both registers unset; `CELLV_PAD_SKIP` at its default (R23); nothing
presented. The host's and the link's fields are empty (DESIGN CHOICE, log 23). -/
def State.reset : State where
  connAddr := .unset
  devAddr := .unset
  cellvPadSkip := false
  outcome := none
  pending := []
  exchange := .idle
  countCache := none
  linkRx := []
  linkTx := []
  linkEvents := []

/-- The answer of a meaning and of a step. -/
abbrev Answer := Host.Outcome State Fault Refusal

end Sys2Proof.Machine
end

