-- ==== Sys2Proof/Machine/Flags.lean ====
section
/-! DEFINITION. The outcome status, "the block's only 'flags'" (10_state.md section 4): no carry, zero or overflow flag
exists (R26). -/

namespace Sys2Proof.Machine

/-- The numeric code of an error kind (R200). -/
def ErrorKind.code : ErrorKind → Nat
  | .lengthMismatch => 1
  | .checksumMismatch => 2
  | .headerMismatch => 3
  | .incompleteFrames => 4
  | .invalidEnumValue => 5
  | .invalidResponseLength => 6
  | .transmitFailed => 7

/-- The numeric status of an outcome: 0 for `Ok`, the kind's code for `Err` (R200). -/
def OpOutcome.code : OpOutcome → Nat
  | .ok _ => 0
  | .err e => e.code

/-- Present an outcome, and change nothing else (R20, R44). -/
def State.withOutcome (s : State) (o : OpOutcome) : State := { s with outcome := some o }

/-- Present no outcome: one is not kept after its operation (R26; log 21). -/
def State.clearOutcome (s : State) : State := { s with outcome := none }

end Sys2Proof.Machine
end

