-- ==== Sys2Proof/Config.lean ====
section
/-! DEFINITION. The constants the spec fixes (00_scope.md section 3; D34 adopts them as normative).
The open parameters of the same section have no value here: `CONN_ADDR`, `DEV_ADDR` and `CELLV_PAD_SKIP` are fields of
State (any value), and `FLOAT_CONV` is an argument of `toHost` (log 13). -/

namespace Sys2Proof.Config

/-- `FRAME_LEN` (R60). -/
abbrev frameLen : Nat := 13

/-- `START`, the marker at frame byte 0 (R61). -/
abbrev start : Byte := 0xA5#8

/-- The payload-length byte at frame byte 3 (R62). -/
abbrev payloadLength : Byte := 0x08#8

/-- `DATA_PER_FRAME`: payload bytes left beside the sequence id (R66). -/
abbrev dataPerFrame : Nat := 7

/-- The offset of the current field (R160). -/
abbrev currentOffset : BitVec 16 := 30000#16

/-- The offset of every temperature field (R162, R167). -/
abbrev temperatureOffset : Byte := 40#8

/-- The host's drain bound in bytes, to be kept exactly (R223). -/
abbrev drainBound : Nat := 100

end Sys2Proof.Config
end

