-- ==== Sys2Proof/Machine/Operands.lean ====
section
/-! DEFINITION. Reading operands: bytes and big-endian fields at an offset (R40, R44, R54), and the operand checks that
refuse (R73, R128, R221). -/

namespace Sys2Proof.Machine

/-- `B[i]`. Callers read only offsets inside the operand (R46). -/
def byteAt (B : Bytes) (i : Nat) : Byte := B.getD i 0#8

/-- `MemRead(B, off, n)`: the bytes `B[off .. off+n-1]` (R6). -/
def slice (B : Bytes) (off n : Nat) : Bytes := (B.drop off).take n

/-- `zeros(n)` (R6). -/
def zeros (n : Nat) : Bytes := List.replicate n 0#8

/-- `p[i]` of a payload. -/
def payloadByte (p : Payload) (i : Nat) : Byte := byteAt p.bytes i

/-- Eight bytes at an offset as a payload. -/
def payloadAt (B : Bytes) (off : Nat) : Payload :=
  ⟨byteAt B off, byteAt B (off + 1), byteAt B (off + 2), byteAt B (off + 3),
    byteAt B (off + 4), byteAt B (off + 5), byteAt B (off + 6), byteAt B (off + 7)⟩

/-- `u16(h, l) = h*256 + l`: the byte at the lower offset is the more significant (R40, R4). -/
def u16 (h l : Byte) : Nat := h.toNat * 256 + l.toNat

/-- `u32(b0, b1, b2, b3)` (R40, R4). -/
def u32 (b0 b1 b2 b3 : Byte) : Nat := b0.toNat * 2 ^ 24 + b1.toNat * 2 ^ 16 + b2.toNat * 2 ^ 8 + b3.toNat

/-- Refuse a code outside `KNOWN` (R73), else go on with its command. -/
def withCommand (code : Byte) (go : Command → Answer) : Answer :=
  match commandOf code with
  | none => .refused (.unknownCode code)
  | some cmd => go cmd

/-- Refuse a scale exponent outside 0..3 (R128), else go on with it. -/
def withExponent (k : Byte) (go : Nat → Answer) : Answer :=
  if k.toNat ≤ 3 then go k.toNat else .refused (.exponentOutsideType k)

/-- The snapshot of `CONN_ADDR` an operation starts with (R32); "An operation that reads one before the host has set it is
refused" (R31; R203, R221). -/
def withConnAddr (s : State) (go : Byte → Answer) : Answer :=
  match s.connAddr with
  | .unset => .refused .connAddrUnset
  | .set conn => go conn

/-- The snapshot of `DEV_ADDR` an operation starts with (R32); "An operation that reads one before the host has set it is
refused" (R31; R203, R221; at the start, log 2). -/
def withDevAddr (s : State) (go : Byte → Answer) : Answer :=
  match s.devAddr with
  | .unset => .refused .devAddrUnset
  | .set dev => go dev

end Sys2Proof.Machine
end

