-- ==== Sys2Proof/Machine/Ops.lean ====
section
/-! DEFINITION. The shared operations: ending an operation with a result or an error, and the host's actions that are no
operations. There is no memory to operate on (R46). -/

namespace Sys2Proof.Machine

/-- `return v`: the operation ends with `Ok(v)` (R6, R26). -/
def done (v : Result) (s : State) : Answer := .next (s.withOutcome (.ok v))

/-- `raise E`, what this block has in place of taking an exception (R205): the operation ends with the error kind, "it
writes nothing", saves nothing, changes no mode and transfers control nowhere. There is no return from it (R206). -/
def raise (e : ErrorKind) (s : State) : Answer := .next (s.withOutcome (.err e))

/-- End with what a computation gave. -/
def finish (r : Except ErrorKind Result) (s : State) : Answer :=
  match r with
  | .ok v => done v s
  | .error e => raise e s

/-- The host sets a configuration register (R21, R22, R213): only that register changes, and later operations see it (R32). -/
def State.setCfg (s : State) (r : CfgIndex) (v : Byte) : State :=
  match r with
  | .connAddr => { s.clearOutcome with connAddr := .set v }
  | .devAddr => { s.clearOutcome with devAddr := .set v }

/-- Reset is asserted (R220): the registers hold no value, DFC has "no other state to reset", and an operation in flight
has no outcome (log 17). The host's exchange phase is kept (DESIGN CHOICE, log 28). -/
def State.assertReset (s : State) (_inFlight : Option Bytes) : State :=
  { s.clearOutcome with connAddr := .unset, devAddr := .unset }

/-- Nothing is presented: nothing happens (DESIGN CHOICE, log 15). -/
def State.idleStep (s : State) : State := s.clearOutcome

/-- The host's first action is taken from the sequence (R47). -/
def State.popAction (s : State) : State := { s with pending := s.pending.tail }

/-- The host presents this next. -/
def State.presentNext (s : State) (p : Presentation) : State := { s with pending := .present p :: s.pending }

end Sys2Proof.Machine
end

