-- ==== Sys2Proof/Machine/FrameCodec.lean ====
section
/-! DEFINITION. The frame codec: ENC_REQ, CHKSUM, DEC_FRAME, DEC_AUTH (41_frame_codec.md). -/

namespace Sys2Proof.Machine

/-- `CHK(B)`: the sum of the bytes modulo 256 (R63). -/
def chk (B : Bytes) : Byte := BitVec.ofNat 8 (B.map BitVec.toNat).sum

/-- A frame's 13 bytes in index order, the order on the link (R60, R41). -/
def Frame.bytes (f : Frame) : Bytes :=
  [f.start, f.address, f.commandCode, f.payloadLength] ++ f.payload.bytes ++ [f.checksum]

/-- The frame with these fields, the fixed bytes of R61 and R62, and its own checksum (R63). -/
def sealFrame (address code : Byte) (payload : Payload) : Frame :=
  ⟨Config.start, address, code, Config.payloadLength, payload,
    chk ([Config.start, address, code, Config.payloadLength] ++ payload.bytes)⟩

/-- The payload of a request: eight zero bytes (R100). -/
def zeroPayload : Payload := payloadAt (zeros 8) 0

/-- The request frame (R100). -/
def encodeRequest (conn code : Byte) : Frame := sealFrame conn code zeroPayload

/-- `DEC_FRAME` (R102): length, checksum, start marker, length byte, command code, in this order. -/
def decodeFrame (F : Bytes) : Except ErrorKind DecodedFrame :=
  if F.length ≠ Config.frameLen then .error .lengthMismatch
  else if byteAt F 12 ≠ chk (slice F 0 12) then .error .checksumMismatch
  else if byteAt F 0 ≠ Config.start then .error .headerMismatch
  else if byteAt F 3 ≠ Config.payloadLength then .error .headerMismatch
  else if known (byteAt F 2) = false then .error .headerMismatch
  else .ok ⟨byteAt F 2, byteAt F 1, payloadAt F 4⟩

/-- `DEC_AUTH` (R103): DEC_FRAME, then the address check. -/
def decodeAuth (dev : Byte) (F : Bytes) : Except ErrorKind DecodedFrame :=
  match decodeFrame F with
  | .error e => .error e
  | .ok d => if d.addr ≠ dev then .error .headerMismatch else .ok d

/-- ENC_REQ (R100). -/
def execEncReq (code : Byte) (s : State) : Answer :=
  withCommand code fun cmd => withConnAddr s fun conn => done (.frame (encodeRequest conn cmd.code)) s

/-- CHKSUM (R101): total. -/
def execChksum (B : Bytes) (s : State) : Answer := done (.byte (chk B)) s

/-- DEC_FRAME (R102). -/
def execDecFrame (F : Bytes) (s : State) : Answer := finish ((decodeFrame F).map .decoded) s

/-- DEC_AUTH (R103). -/
def execDecAuth (F : Bytes) (s : State) : Answer :=
  withDevAddr s fun dev => finish ((decodeAuth dev F).map fun d => .authenticated d.code d.payload) s

end Sys2Proof.Machine
end

