-- ==== Sys2Proof/Machine/ByteCodec.lean ====
section
/-! DEFINITION. The byte codec: U16BE, U32BE, SCALED, OFFSCALED, OFFBYTE, BIT (42_byte_codec.md). Exact integers; nothing
rounds and nothing wraps (R127). -/

namespace Sys2Proof.Machine

/-- `SCALED` (R122): the mantissa is the 16-bit value, the scale `10^(-k)`. -/
def scaled (h l : Byte) (k : Nat) : Fixed := ⟨u16 h l, k⟩

/-- `OFFSCALED` (R123): exact signed subtraction, then the scale. -/
def offScaled (h l : Byte) (off : BitVec 16) (k : Nat) : Fixed := ⟨(u16 h l : Int) - off.toNat, k⟩

/-- `OFFBYTE` (R124): exact signed subtraction. -/
def offByte (raw off : Byte) : Int := (raw.toNat : Int) - off.toNat

/-- `BIT` (R125): bit `idx`, 0 the least significant; false for `idx >= 8`. -/
def bit (v : Byte) (idx : Nat) : Bool := if idx ≥ 8 then false else (v.toNat / 2 ^ idx) % 2 == 1

/-- The exact rational a fixed-point value denotes, `m × 10^(-k)` (R5). -/
def fixedValue (x : Fixed) : ℚ := (x.mantissa : ℚ) / 10 ^ x.exponent

/-- The host's conversion of a result, with the open parameter `FLOAT_CONV` as the argument `floatConv` (R126; log 13). No
operation applies it: "DFC itself never converts it". -/
def toHost {HostNumber : Type} (floatConv : ℚ → HostNumber) (x : Fixed) : HostNumber :=
  floatConv (fixedValue x)

/-- U16BE (R120). -/
def execU16be (h l : Byte) (s : State) : Answer := done (.int (u16 h l)) s

/-- U32BE (R121). -/
def execU32be (b0 b1 b2 b3 : Byte) (s : State) : Answer := done (.int (u32 b0 b1 b2 b3)) s

/-- SCALED (R122); `k > 3` is refused (R128). -/
def execScaled (h l k : Byte) (s : State) : Answer :=
  withExponent k fun k => done (.fixed (scaled h l k)) s

/-- OFFSCALED (R123); `k > 3` is refused (R128). -/
def execOffscaled (h l : Byte) (off : BitVec 16) (k : Byte) (s : State) : Answer :=
  withExponent k fun k => done (.fixed (offScaled h l off k)) s

/-- OFFBYTE (R124). -/
def execOffbyte (raw off : Byte) (s : State) : Answer := done (.int (offByte raw off)) s

/-- BIT (R125). -/
def execBit (v idx : Byte) (s : State) : Answer := done (.bool (bit v idx.toNat)) s

end Sys2Proof.Machine
end

