-- ==== Sys2Proof/Machine/Profiles.lean ====
section
/-! DEFINITION. The nine response field profiles (44_response_profiles.md). A byte no field names is never read (R170). -/

namespace Sys2Proof.Machine

/-- `P_SOC` (R160). -/
def profileSoc (p : Payload) : StateOfCharge where
  totalVoltage := scaled p.b0 p.b1 1
  gatherVoltage := scaled p.b2 p.b3 1
  current := offScaled p.b4 p.b5 Config.currentOffset 1
  stateOfCharge := scaled p.b6 p.b7 1

/-- `P_CVLIM` (R161). -/
def profileCvlim (p : Payload) : CellVoltageLimits where
  maxVoltage := scaled p.b0 p.b1 3
  maxVoltageCellIndex := p.b2
  minVoltage := scaled p.b3 p.b4 3
  minVoltageCellIndex := p.b5

/-- `P_CTLIM` (R162). -/
def profileCtlim (p : Payload) : CellTemperatureLimits where
  maxTemp := offByte p.b0 Config.temperatureOffset
  maxTempCellIndex := p.b1
  minTemp := offByte p.b2 Config.temperatureOffset
  minTempCellIndex := p.b3

/-- The status enum `{0=idle, 1=charging, 2=discharging}` (R163). -/
def chargeState (b : Byte) : Except ErrorKind ChargeState :=
  if b = 0#8 then .ok .idle
  else if b = 1#8 then .ok .charging
  else if b = 2#8 then .ok .discharging
  else .error .invalidEnumValue

/-- `P_MOSFET` (R163), the only profile that can reject a value. -/
def profileMosfet (p : Payload) : Except ErrorKind MosfetStatus :=
  match chargeState p.b0 with
  | .error e => .error e
  | .ok st => .ok ⟨st, p.b1, p.b2, p.b3, u32 p.b4 p.b5 p.b6 p.b7⟩

/-- `P_STATUS` (R164): a connection flag is true for any non-zero byte. -/
def profileStatus (p : Payload) : StatusInformation where
  cellCount := p.b0
  temperatureSensorCount := p.b1
  chargerConnected := decide (p.b2.toNat > 0)
  loadConnected := decide (p.b3.toNat > 0)
  di1 := bit p.b4 0
  di2 := bit p.b4 1
  di3 := bit p.b4 2
  di4 := bit p.b4 3
  do1 := bit p.b4 4
  do2 := bit p.b4 5
  do3 := bit p.b4 6
  do4 := bit p.b4 7

/-- The 64-bit backing word `Σ_{j=0}^{6} p[j] * 2^(8j)` (R165). -/
def failWord (p : Payload) : BitVec 64 :=
  BitVec.ofNat 64 ((List.range 7).map fun j => (payloadByte p j).toNat * 2 ^ (8 * j)).sum

/-- `P_FAIL` (R165): flag `f` is bit `f mod 8` of byte `f div 8`. -/
def profileFail (p : Payload) : FailureStatus where
  flags := (List.range 56).map fun f => bit (payloadByte p (f / 8)) (f % 8)
  word := failWord p
  faultCode := p.b7

/-- Byte 6 of each 7-byte region dropped: region `j` gives `S[7j .. min(7j+5, len(S)-1)]` (R166, C2). -/
def dropPads (S : Bytes) : Bytes :=
  (List.range ((S.length + 6) / 7)).flatMap fun j => slice S (7 * j) 6

/-- `P_CELLV` (R166), with the parameter `CELLV_PAD_SKIP`. -/
def profileCellv (padSkip : Bool) (S : Bytes) (n : Nat) : Except ErrorKind (List Fixed) :=
  let T := if padSkip then dropPads S else S
  if T.length < 2 * n then .error .incompleteFrames
  else .ok ((List.range n).map fun i => scaled (byteAt T (2 * i)) (byteAt T (2 * i + 1)) 3)

/-- `P_CELLT` (R167). -/
def profileCellt (S : Bytes) (n : Nat) : Except ErrorKind (List Int) :=
  if S.length < n then .error .incompleteFrames
  else .ok ((List.range n).map fun i => offByte (byteAt S i) Config.temperatureOffset)

/-- `P_BAL` (R168, C1): cell `i` is bit `i mod 8` of byte `i div 8`. -/
def profileBal (p : Payload) (n : Nat) : Except ErrorKind (List Bool) :=
  if n > 64 then .error .incompleteFrames
  else .ok ((List.range n).map fun i => bit (payloadByte p (i / 8)) (i % 8))

/-- P_SOC (R160). -/
def execPSoc (p : Payload) (s : State) : Answer := done (.record (.stateOfCharge (profileSoc p))) s

/-- P_CVLIM (R161). -/
def execPCvlim (p : Payload) (s : State) : Answer := done (.record (.cellVoltageLimits (profileCvlim p))) s

/-- P_CTLIM (R162). -/
def execPCtlim (p : Payload) (s : State) : Answer := done (.record (.cellTemperatureLimits (profileCtlim p))) s

/-- P_MOSFET (R163). -/
def execPMosfet (p : Payload) (s : State) : Answer :=
  finish ((profileMosfet p).map fun r => .record (.mosfetStatus r)) s

/-- P_STATUS (R164). -/
def execPStatus (p : Payload) (s : State) : Answer := done (.record (.statusInformation (profileStatus p))) s

/-- P_CELLV (R166). -/
def execPCellv (S : Bytes) (n : Byte) (s : State) : Answer :=
  finish ((profileCellv s.cellvPadSkip S n.toNat).map fun l => .record (.cellVoltages l)) s

/-- P_CELLT (R167). -/
def execPCellt (S : Bytes) (n : Byte) (s : State) : Answer :=
  finish ((profileCellt S n.toNat).map fun l => .record (.cellTemperatures l)) s

/-- P_BAL (R168). -/
def execPBal (p : Payload) (n : Byte) (s : State) : Answer :=
  finish ((profileBal p n.toNat).map fun l => .record (.balanceStates l)) s

/-- P_FAIL (R165). -/
def execPFail (p : Payload) (s : State) : Answer := done (.record (.failureStatus (profileFail p))) s

end Sys2Proof.Machine
end

