-- ==== Sys2Proof/Machine/MultiFrame.lean ====
section
/-! DEFINITION. FRAMECOUNT, REASM and the receive pipeline RX_RESPONSE (43_multiframe.md). -/

namespace Sys2Proof.Machine

/-- `FRAMECOUNT` (R140): `ceil(n / 3)`, `ceil(n / 7)`, or 1. -/
def frameCount (cmd : Command) (n : Nat) : Nat :=
  match cmd with
  | .cellVoltages => (n + 2) / 3
  | .temperatures => (n + 6) / 7
  | .stateOfCharge => 1
  | .cellVoltageLimits => 1
  | .cellTemperatureLimits => 1
  | .mosfetStatus => 1
  | .status => 1
  | .balanceStates => 1
  | .failures => 1

/-- The sequence id of a multi-frame payload, its byte 0 (R66). -/
def seqId (p : Payload) : Nat := p.b0.toNat

/-- The data region of a multi-frame payload, its bytes 1 to 7 (R66). -/
def dataRegion (p : Payload) : Bytes := [p.b1, p.b2, p.b3, p.b4, p.b5, p.b6, p.b7]

/-- Put a payload before the first one whose id is not smaller. -/
def insertById (p : Payload) : List Payload → List Payload
  | [] => [p]
  | q :: rest => if seqId p ≤ seqId q then p :: q :: rest else q :: insertById p rest

/-- Sorted ascending by id, stable (R141, D27; log 18). -/
def sortById : List Payload → List Payload
  | [] => []
  | p :: rest => insertById p (sortById rest)

/-- `REASM` (R141): the sorted ids must be exactly `1, 2, ..., N`. -/
def reassemble (P : List Payload) (N : Nat) : Except ErrorKind Bytes :=
  if (sortById P).map seqId ≠ List.range' 1 N then .error .incompleteFrames
  else .ok ((sortById P).flatMap dataRegion)

/-- Chunk `k` of a receive buffer: bytes `13k .. 13k+12` (R41, R142). -/
def chunk (B : Bytes) (k : Nat) : Bytes := slice B (Config.frameLen * k) Config.frameLen

/-- Decode and authenticate chunks in index order; the first error propagates (R142 step 2). -/
def decodeChunks (dev : Byte) : List Bytes → Except ErrorKind (List DecodedFrame)
  | [] => .ok []
  | C :: rest =>
    match decodeAuth dev C with
    | .error e => .error e
    | .ok d => (decodeChunks dev rest).map (d :: ·)

/-- `PROFILE(code)` over the payloads of a response (R169, R142 step 4): a multi-frame command's are reassembled first,
whatever `N` is (R68); a single-frame command has the one payload. -/
def decodePayloads (padSkip : Bool) (cmd : Command) (n : Nat) (P : List Payload) : Except ErrorKind Response :=
  let p0 := P.headD zeroPayload
  match cmd with
  | .stateOfCharge => .ok (.stateOfCharge (profileSoc p0))
  | .cellVoltageLimits => .ok (.cellVoltageLimits (profileCvlim p0))
  | .cellTemperatureLimits => .ok (.cellTemperatureLimits (profileCtlim p0))
  | .mosfetStatus => (profileMosfet p0).map .mosfetStatus
  | .status => .ok (.statusInformation (profileStatus p0))
  | .cellVoltages =>
    match reassemble P (frameCount cmd n) with
    | .error e => .error e
    | .ok S => (profileCellv padSkip S n).map .cellVoltages
  | .temperatures =>
    match reassemble P (frameCount cmd n) with
    | .error e => .error e
    | .ok S => (profileCellt S n).map .cellTemperatures
  | .balanceStates => (profileBal p0 n).map .balanceStates
  | .failures => .ok (.failureStatus (profileFail p0))

/-- `RX_RESPONSE` (R142): the length, then every chunk decoded and authenticated, then every command code, then
reassembly and the profile. Bytes past `13 * N` are ignored. -/
def receive (padSkip : Bool) (dev : Byte) (cmd : Command) (n : Nat) (RXB : Bytes) : Except ErrorKind Response :=
  let N := frameCount cmd n
  if RXB.length < Config.frameLen * N then .error .invalidResponseLength
  else
    match decodeChunks dev ((List.range N).map (chunk RXB)) with
    | .error e => .error e
    | .ok ds =>
      if ds.any (fun d => d.code != cmd.code) then .error .incompleteFrames
      else decodePayloads padSkip cmd n (ds.map DecodedFrame.payload)

/-- FRAMECOUNT (R140). -/
def execFramecount (code n : Byte) (s : State) : Answer :=
  withCommand code fun cmd => done (.int (frameCount cmd n.toNat)) s

/-- REASM (R141). -/
def execReasm (P : List Payload) (N : Nat) (s : State) : Answer := finish ((reassemble P N).map .stream) s

/-- RX_RESPONSE (R142). -/
def execRxResponse (code n : Byte) (RXB : Bytes) (s : State) : Answer :=
  withCommand code fun cmd => withDevAddr s fun dev =>
    finish ((receive s.cellvPadSkip dev cmd n.toNat RXB).map .record) s

end Sys2Proof.Machine
end

