-- ==== Sys2Proof/Machine/Exchange.lean ====
section
/-! DEFINITION. The nine wire commands (R64): each is one exchange of the host with the BMS through the block, the steps
of R225. DEDUCED, log 6: the table gives these rows a code, a parameter, a frame count and a profile, and R225 is the one
rule that says how a command is carried out. Bytes and timeouts come from `linkEvents` (log 8). -/

namespace Sys2Proof.Machine

/-- What the environment does in this exchange; with nothing listed the whole request is accepted and no byte arrives
(DESIGN CHOICE, log 8). -/
def State.linkEvent (s : State) : LinkEvent := s.linkEvents.headD ⟨Config.frameLen, [], 0, []⟩

/-- R225 steps 1 and 2: the request is computed (ENC_REQ) and written; the transport accepts its first bytes (log 25), and the
bytes that arrive are on the link behind those that already were. It starts from whatever phase stands, `Idle` or the last
exchange's `Decoded` or `Failed` (DESIGN CHOICE, log 28). -/
def State.sendRequest (s : State) (f : Frame) : State :=
  { s.withOutcome (.ok (.frame f)) with
    exchange := .requestSent
    linkTx := s.linkTx ++ f.bytes.take s.linkEvent.written
    linkRx := s.linkRx ++ s.linkEvent.reply
    linkEvents := s.linkEvents.tail }

/-- R225 step 3: the host computes `N` (FRAMECOUNT) and waits for `13 * N` bytes. -/
def State.awaitResponse (s : State) (N : Nat) : State :=
  { s.withOutcome (.ok (.int N)) with exchange := .awaitingResponse }

/-- Bytes leave the link (a read or the drain). -/
def State.takeRx (s : State) (k : Nat) : State := { s with linkRx := s.linkRx.drop k }

/-- Bytes arrive on the link, behind those that are there (R41, R224; log 9). -/
def State.arrive (s : State) (B : Bytes) : State := { s with linkRx := s.linkRx ++ B }

/-- R223: up to 100 bytes are drained, fewer if fewer are there; it cannot fail; the failure is reported unchanged
(log 11). `outcome` keeps the last operation's of the block, also where the failure is the host's or the transport's
(DESIGN CHOICE, log 26). -/
def State.failExchange (s : State) (f : ExchangeFailure) : State :=
  { s.takeRx Config.drainBound with exchange := .failed f }

/-- R225 step 6 on `Ok`: the record is returned, and a Status response fills the count cache (R29). -/
def State.completeExchange (s : State) (dev : Byte) (r : Response) : State :=
  { s.withOutcome (.ok (.record r)) with
    exchange := .decoded r
    countCache :=
      match r with
      | .statusInformation i => some ⟨dev, i.cellCount, i.temperatureSensorCount⟩
      | _ => s.countCache }

/-- The count the host takes for a command from its cache (R226, R29): the cell count for CellVoltages and BalanceStates,
the sensor count for Temperatures; none for another device (log 20). -/
def State.cachedCount (s : State) (cmd : Command) : Option Byte :=
  match s.countCache with
  | none => none
  | some c =>
    if s.devAddr = .set c.device then
      match cmd with
      | .cellVoltages => some c.cellCount
      | .balanceStates => some c.cellCount
      | .temperatures => some c.temperatureSensorCount
      | _ => none
    else none

/-- R225 steps 5 and 6: `13 * N` bytes are read into `RXB`, and RX_RESPONSE decides; `late` is what arrives after the read. -/
def concludeExchange (cmd : Command) (n : Nat) (late : Bytes) (s : State) : Answer :=
  withDevAddr s fun dev =>
    let size := Config.frameLen * frameCount cmd n
    let ended := (s.takeRx size).arrive late
    match receive s.cellvPadSkip dev cmd n (s.linkRx.take size) with
    | .error e => .next ((ended.withOutcome (.err e)).failExchange (.error e))
    | .ok r => .next (ended.completeExchange dev r)

/-- One exchange (R225). A written count that is not 13 fails it with the host's `TransmitFailed` (step 2); too few bytes
within the caller's timeout fail it with the transport's timeout (step 4): that the timeout expires is assumed here (DESIGN
CHOICE, log 27). In both failures `outcome` keeps what ENC_REQ or FRAMECOUNT ended with (DESIGN CHOICE, log 26). -/
def exchangeStep (cmd : Command) (n : Nat) (s : State) : Answer :=
  withConnAddr s fun conn =>
    let ev := s.linkEvent
    let sent := s.sendRequest (encodeRequest conn cmd.code)
    if ev.written ≠ Config.frameLen then .next ((sent.arrive ev.late).failExchange (.error .transmitFailed))
    else
      let waiting := sent.awaitResponse (frameCount cmd n)
      if waiting.linkRx.length < Config.frameLen * frameCount cmd n then
        .next (((waiting.takeRx ev.takenByTimeout).arrive ev.late).failExchange .timeout)
      else concludeExchange cmd n ev.late waiting

/-- CMD_StateOfCharge, 0x90. -/
def execCmdStateOfCharge (s : State) : Answer := exchangeStep .stateOfCharge 0 s

/-- CMD_CellVoltageLimits, 0x91. -/
def execCmdCellVoltageLimits (s : State) : Answer := exchangeStep .cellVoltageLimits 0 s

/-- CMD_CellTemperatureLimits, 0x92. -/
def execCmdCellTemperatureLimits (s : State) : Answer := exchangeStep .cellTemperatureLimits 0 s

/-- CMD_MosfetStatus, 0x93. -/
def execCmdMosfetStatus (s : State) : Answer := exchangeStep .mosfetStatus 0 s

/-- CMD_Status, 0x94. -/
def execCmdStatus (s : State) : Answer := exchangeStep .status 0 s

/-- CMD_CellVoltages, 0x95, with the cell count. -/
def execCmdCellVoltages (n : Byte) (s : State) : Answer := exchangeStep .cellVoltages n.toNat s

/-- CMD_Temperatures, 0x96, with the sensor count. -/
def execCmdTemperatures (n : Byte) (s : State) : Answer := exchangeStep .temperatures n.toNat s

/-- CMD_BalanceStates, 0x97; the count is the profile's, not on the wire. -/
def execCmdBalanceStates (n : Byte) (s : State) : Answer := exchangeStep .balanceStates n.toNat s

/-- CMD_Failures, 0x98. -/
def execCmdFailures (s : State) : Answer := exchangeStep .failures 0 s

end Sys2Proof.Machine
end

