-- ==== Sys2Proof/Machine/Dispatch.lean ====
section
/-! DEFINITION. exec: one arm per constructor of Instr, each a call of that instruction's meaning. -/

namespace Sys2Proof.Machine

def exec (i : Instr) (s : State) : Host.Outcome State Fault Refusal :=
  match i with
  | .encReq code => Sys2Proof.Machine.execEncReq code s
  | .chksum B => Sys2Proof.Machine.execChksum B s
  | .decFrame F => Sys2Proof.Machine.execDecFrame F s
  | .decAuth F => Sys2Proof.Machine.execDecAuth F s
  | .u16be h l => Sys2Proof.Machine.execU16be h l s
  | .u32be b0 b1 b2 b3 => Sys2Proof.Machine.execU32be b0 b1 b2 b3 s
  | .scaled h l k => Sys2Proof.Machine.execScaled h l k s
  | .offscaled h l off k => Sys2Proof.Machine.execOffscaled h l off k s
  | .offbyte raw off => Sys2Proof.Machine.execOffbyte raw off s
  | .bit v idx => Sys2Proof.Machine.execBit v idx s
  | .framecount code n => Sys2Proof.Machine.execFramecount code n s
  | .reasm P N => Sys2Proof.Machine.execReasm P N s
  | .rxResponse code n RXB => Sys2Proof.Machine.execRxResponse code n RXB s
  | .pSoc p => Sys2Proof.Machine.execPSoc p s
  | .pCvlim p => Sys2Proof.Machine.execPCvlim p s
  | .pCtlim p => Sys2Proof.Machine.execPCtlim p s
  | .pMosfet p => Sys2Proof.Machine.execPMosfet p s
  | .pStatus p => Sys2Proof.Machine.execPStatus p s
  | .pCellv S n => Sys2Proof.Machine.execPCellv S n s
  | .pCellt S n => Sys2Proof.Machine.execPCellt S n s
  | .pBal p n => Sys2Proof.Machine.execPBal p n s
  | .pFail p => Sys2Proof.Machine.execPFail p s
  | .cmdStateOfCharge => Sys2Proof.Machine.execCmdStateOfCharge s
  | .cmdCellVoltageLimits => Sys2Proof.Machine.execCmdCellVoltageLimits s
  | .cmdCellTemperatureLimits => Sys2Proof.Machine.execCmdCellTemperatureLimits s
  | .cmdMosfetStatus => Sys2Proof.Machine.execCmdMosfetStatus s
  | .cmdStatus => Sys2Proof.Machine.execCmdStatus s
  | .cmdCellVoltages n => Sys2Proof.Machine.execCmdCellVoltages n s
  | .cmdTemperatures n => Sys2Proof.Machine.execCmdTemperatures n s
  | .cmdBalanceStates n => Sys2Proof.Machine.execCmdBalanceStates n s
  | .cmdFailures => Sys2Proof.Machine.execCmdFailures s

end Sys2Proof.Machine
end

