-- ==== Sys2Proof/Machine/Step.lean ====
section
/-! DEFINITION. One step: the host's next action (R47). DFC has no program counter and fetches nothing (R25); what stands
in the place of a fetch is the presentation the host makes next (log 16). -/

namespace Sys2Proof.Machine

/-- One step: nothing presented, a configuration write, a reset, or one operation or wire command performed to completion
on the state whose sequence of actions has moved on. -/
def step (s : State) : Host.Outcome State Fault Refusal :=
  match s.pending with
  | [] => .next s.idleStep
  | .cfg r v :: _ => .next (s.popAction.setCfg r v)
  | .reset inFlight :: _ => .next (s.popAction.assertReset inFlight)
  | .present p :: _ =>
    match decode p with
    | .error e => .refused (.undecoded e)
    | .ok i => exec i s.popAction

/-- `s` with the instruction of a table word presented next. -/
def State.withFetchWord (s : State) (nbits w : Nat) : State := s.presentNext (tablePresentation nbits w)

end Sys2Proof.Machine
end

