-- ==== Sys2Proof/Safety.lean ====
section
/-! DEFINITION. The terms claims use: the result type of each outcome (R27, R127), the invariant of a state, and the
outcomes of a sequence of actions (R47). -/

namespace Sys2Proof.Machine

/-- A scaled result: a mantissa in the range of its rule and an exponent 0..3 (R71, R127). -/
def Fixed.inRange (x : Fixed) : Prop := -65535 ≤ x.mantissa ∧ x.mantissa ≤ 65535 ∧ x.exponent ≤ 3

/-- A record whose fields are in the ranges of its profile's rule (R160 to R168). -/
def Response.wellTyped : Response → Prop
  | .stateOfCharge r =>
    (0 ≤ r.totalVoltage.mantissa ∧ r.totalVoltage.mantissa ≤ 65535 ∧ r.totalVoltage.exponent = 1) ∧
    (0 ≤ r.gatherVoltage.mantissa ∧ r.gatherVoltage.mantissa ≤ 65535 ∧ r.gatherVoltage.exponent = 1) ∧
    (-30000 ≤ r.current.mantissa ∧ r.current.mantissa ≤ 35535 ∧ r.current.exponent = 1) ∧
    (0 ≤ r.stateOfCharge.mantissa ∧ r.stateOfCharge.mantissa ≤ 65535 ∧ r.stateOfCharge.exponent = 1)
  | .cellVoltageLimits r =>
    (0 ≤ r.maxVoltage.mantissa ∧ r.maxVoltage.mantissa ≤ 65535 ∧ r.maxVoltage.exponent = 3) ∧
    (0 ≤ r.minVoltage.mantissa ∧ r.minVoltage.mantissa ≤ 65535 ∧ r.minVoltage.exponent = 3)
  | .cellTemperatureLimits r => (-40 ≤ r.maxTemp ∧ r.maxTemp ≤ 215) ∧ (-40 ≤ r.minTemp ∧ r.minTemp ≤ 215)
  | .mosfetStatus r => 0 ≤ r.remainingCapacity ∧ r.remainingCapacity ≤ 4294967295
  | .statusInformation _ => True
  | .cellVoltages cells =>
    cells.length ≤ 255 ∧ ∀ x ∈ cells, 0 ≤ x.mantissa ∧ x.mantissa ≤ 65535 ∧ x.exponent = 3
  | .cellTemperatures sensors => sensors.length ≤ 255 ∧ ∀ t ∈ sensors, -40 ≤ t ∧ t ≤ 215
  | .balanceStates cells => cells.length ≤ 64
  | .failureStatus r => r.flags.length = 56 ∧ r.word.toNat < 2 ^ 56

/-- A result of one of DFC's result types (R70's table, R127): a frame is a request frame with its own checksum (R100), a
code is known (R102), a stream is whole 7-byte regions (R141). -/
def Result.wellTyped : Result → Prop
  | .frame f =>
    f.start = 0xA5#8 ∧ f.payloadLength = 0x08#8 ∧ f.payload = ⟨0#8, 0#8, 0#8, 0#8, 0#8, 0#8, 0#8, 0#8⟩ ∧
      known f.commandCode = true ∧
      f.checksum = f.start + f.address + f.commandCode + f.payloadLength
  | .byte _ => True
  | .decoded d => known d.code = true
  | .authenticated code _ => known code = true
  | .int v => -255 ≤ v ∧ v ≤ 4294967295
  | .fixed v => Fixed.inRange v
  | .bool _ => True
  | .stream S => S.length % 7 = 0
  | .record r => r.wellTyped

/-- An outcome of the block: a typed result, or a kind it raises; it never raises `TransmitFailed` (R200). -/
def OpOutcome.wellTyped : OpOutcome → Prop
  | .ok v => v.wellTyped
  | .err e => e ≠ .transmitFailed

/-- No exchange is under way (R222, R225): the phase is `Idle`, `Decoded` or `Failed`. -/
def ExchangePhase.ended : ExchangePhase → Prop
  | .idle => True
  | .requestSent => False
  | .awaitingResponse => False
  | .decoded r => r.wellTyped
  | .failed _ => True

/-- The invariant of a state: the outcome presented, if any, is one of the block's (R26, R200, R127), and no exchange is
under way when another action is taken (R222), the one that ended having left a typed record or a failure (R225). -/
def State.Inv (s : State) : Prop :=
  (∀ o, s.outcome = some o → o.wellTyped) ∧ s.exchange.ended

/-- The configuration an outcome may depend on (R20): the two registers and `CELLV_PAD_SKIP`. -/
def State.sameConfig (s t : State) : Prop :=
  s.connAddr = t.connAddr ∧ s.devAddr = t.devAddr ∧ s.cellvPadSkip = t.cellvPadSkip

/-- The outcome an answer presents, if it is a next state. -/
def outcomeOf : Answer → Option OpOutcome
  | .next t => t.outcome
  | .fault _ => none
  | .refused _ => none

/-- The outcomes presented over `k` steps, in order; `none` once the machine has stopped, or where a step presents no
outcome. -/
def outcomesOver : Nat → State → List (Option OpOutcome)
  | 0, _ => []
  | k + 1, s =>
    match step s with
    | .next t => t.outcome :: outcomesOver k t
    | .fault _ => []
    | .refused _ => []

/-- The 8-bit wraparound sum, in 8-bit addition (R63). -/
def byteSum (B : Bytes) : Byte := B.foldl (· + ·) 0#8

/-- The 13 bytes of a valid frame (R60 to R63). -/
def validFrame (address code : Byte) (p : Payload) : Bytes :=
  [0xA5#8, address, code, 0x08#8, p.b0, p.b1, p.b2, p.b3, p.b4, p.b5, p.b6, p.b7,
    byteSum [0xA5#8, address, code, 0x08#8, p.b0, p.b1, p.b2, p.b3, p.b4, p.b5, p.b6, p.b7]]

/-- The wire command of a command, as an instruction (R64); `n` is read by the three that take a count. -/
def commandInstr : Command → Byte → Instr
  | .stateOfCharge, _ => .cmdStateOfCharge
  | .cellVoltageLimits, _ => .cmdCellVoltageLimits
  | .cellTemperatureLimits, _ => .cmdCellTemperatureLimits
  | .mosfetStatus, _ => .cmdMosfetStatus
  | .status, _ => .cmdStatus
  | .cellVoltages, n => .cmdCellVoltages n
  | .temperatures, n => .cmdTemperatures n
  | .balanceStates, n => .cmdBalanceStates n
  | .failures, _ => .cmdFailures

/-- R200's column "raised by". -/
def mayRaise : ErrorKind → Instr → Prop
  | .lengthMismatch, .decFrame _ => True
  | .lengthMismatch, .decAuth _ => True
  | .checksumMismatch, .decFrame _ => True
  | .checksumMismatch, .decAuth _ => True
  | .checksumMismatch, .rxResponse _ _ _ => True
  | .headerMismatch, .decFrame _ => True
  | .headerMismatch, .decAuth _ => True
  | .headerMismatch, .rxResponse _ _ _ => True
  | .incompleteFrames, .reasm _ _ => True
  | .incompleteFrames, .rxResponse _ _ _ => True
  | .incompleteFrames, .pCellv _ _ => True
  | .incompleteFrames, .pCellt _ _ => True
  | .incompleteFrames, .pBal _ _ => True
  | .invalidEnumValue, .pMosfet _ => True
  | .invalidEnumValue, .rxResponse code _ _ => code = 0x93#8
  | .invalidResponseLength, .rxResponse _ _ _ => True
  | _, _ => False

/-- The request frame of a command code (R100): the eight payload bytes are zero. -/
def requestFrame (conn code : Byte) : Bytes := validFrame conn code ⟨0#8, 0#8, 0#8, 0#8, 0#8, 0#8, 0#8, 0#8⟩

/-- `i` runs and ends with `Ok(v)`, and changes nothing but the outcome presented (R20, R26). -/
abbrev Completes (i : Instr) (s : State) (v : Result) : Prop :=
  exec i s = .next { s with outcome := some (.ok v) }

/-- `i` runs and ends with `Err(e)`, and changes nothing but the outcome presented (R20, R26, R205). -/
abbrev Fails (i : Instr) (s : State) (e : ErrorKind) : Prop :=
  exec i s = .next { s with outcome := some (.err e) }

/-- Both registers are set, the transport accepts the next request whole, and the bytes on the link, with those that
arrive, begin with `buf`. -/
def State.replyWaits (s : State) (conn dev : Byte) (buf rest : Bytes) : Prop :=
  s.connAddr = .set conn ∧ s.devAddr = .set dev ∧ s.linkEvent.written = 13 ∧
    s.linkRx ++ s.linkEvent.reply = buf ++ rest

/-- The state an exchange leaves that ends in a record (R225 steps 2, 4 and 6): `sent` has gone out, `rest` is still on the
link with what arrived after the read, the record is returned, the count cache is `cache`, and the environment's next input is used up. -/
def State.afterExchange (s : State) (sent rest : Bytes) (r : Response) (cache : Option CountCache) : State :=
  { s with
    outcome := some (.ok (.record r))
    exchange := .decoded r
    countCache := cache
    linkTx := s.linkTx ++ sent
    linkRx := rest ++ s.linkEvent.late
    linkEvents := s.linkEvents.tail }

end Sys2Proof.Machine
end

