-- ==== Sys2Proof/WellFormed.lean ====
section
/-! DEFINITION. Which instructions have every operand in its type (R70, R71): the ones no meaning refuses for an operand. -/

namespace Sys2Proof

/-- Every operand is in its type: a `Code` operand of ENC_REQ, FRAMECOUNT and RX_RESPONSE is in `KNOWN` (R73), and a scale
exponent `k` is at most 3 (R71, R128). An `idx` of 8 or more "is not such an operand" (R128), so BIT has no check. The
other operand types are Lean types, which hold no other value. -/
def Instr.wellFormed : Instr → Bool
  | .encReq code => known code
  | .chksum _ => true
  | .decFrame _ => true
  | .decAuth _ => true
  | .u16be _ _ => true
  | .u32be _ _ _ _ => true
  | .scaled _ _ k => decide (k.toNat ≤ 3)
  | .offscaled _ _ _ k => decide (k.toNat ≤ 3)
  | .offbyte _ _ => true
  | .bit _ _ => true
  | .framecount code _ => known code
  | .reasm _ _ => true
  | .rxResponse code _ _ => known code
  | .pSoc _ => true
  | .pCvlim _ => true
  | .pCtlim _ => true
  | .pMosfet _ => true
  | .pStatus _ => true
  | .pCellv _ _ => true
  | .pCellt _ _ => true
  | .pBal _ _ => true
  | .pFail _ => true
  | .cmdStateOfCharge => true
  | .cmdCellVoltageLimits => true
  | .cmdCellTemperatureLimits => true
  | .cmdMosfetStatus => true
  | .cmdStatus => true
  | .cmdCellVoltages _ => true
  | .cmdTemperatures _ => true
  | .cmdBalanceStates _ => true
  | .cmdFailures => true

/-- The rows of format OPSEL8: the operations of the block itself. The other nine are the host's wire commands. -/
def Instr.isOperation (i : Instr) : Bool := (encode i).format == .opsel

end Sys2Proof
end

