-- ==== Sys2Proof/Certificates/Slice0/Obligations.lean ====
section
/-! DEFINITION. The statements for the provers. `Completes i s v` and `Fails i s e` (Safety.lean) say that exec answers a next
state that differs from `s` in the outcome presented and in nothing else: each such statement is its own frame. -/

open Sys2Proof Sys2Proof.Machine

/-! ### Encodings -/

/-- No operand and no bit of an encoding is dropped: every instruction of every family, with every operand at every value,
is what the decoder reads from its encoding (R70, R71; the operand layout is the model's, log 4). -/
def Obligations.DecodeOfEncodeIsTheInstruction : Prop :=
  ∀ i : Instr, decode (encode i) = .ok i

/-- Every presentation the decoder accepts has one meaning and is that instruction's encoding (log 4). -/
def Obligations.EncodeOfDecodeIsThePresentation : Prop :=
  ∀ (p : Presentation) (i : Instr), decode p = .ok i → encode i = p

/-- The encodings of 95 L3 (PROG-1, PROG-2), and one word of each other family: the selectors are those of R70 and R64, the
order of the operands is R70's. Two layouts are the model's choice: the 16-bit `off` of OFFSCALED as two bytes (log 4), and the
count of a wire command as an operand byte (log 4, log 7). -/
def Obligations.SpecWordsDecode : Prop :=
  decode ⟨.opsel, [0x01#8, 0x90#8]⟩ = .ok (.encReq 0x90#8) ∧
  decode ⟨.opsel, [0x20#8, 0x90#8, 0x00#8]⟩ = .ok (.framecount 0x90#8 0#8) ∧
  decode ⟨.opsel, [0x20#8, 0x95#8, 0x04#8]⟩ = .ok (.framecount 0x95#8 4#8) ∧
  (∀ rxb : Bytes, decode ⟨.opsel, 0x22#8 :: 0x90#8 :: 0x00#8 :: rxb⟩ = .ok (.rxResponse 0x90#8 0#8 rxb)) ∧
  decode ⟨.opsel, [0x13#8, 0x75#8, 0x2F#8, 0x75#8, 0x30#8, 0x01#8]⟩ = .ok (.offscaled 0x75#8 0x2F#8 30000#16 1#8) ∧
  decode ⟨.opsel, [0x33#8, 1#8, 1#8, 1#8, 0x2A#8, 0#8, 0#8, 0x27#8, 0x10#8]⟩ =
    .ok (.pMosfet ⟨1#8, 1#8, 1#8, 0x2A#8, 0#8, 0#8, 0x27#8, 0x10#8⟩) ∧
  decode ⟨.wireCmd, [0x94#8]⟩ = .ok .cmdStatus ∧
  decode ⟨.wireCmd, [0x95#8, 0x04#8]⟩ = .ok (.cmdCellVoltages 4#8)

/-- R72. The OPSEL values of R70's table select an operation; every other value is refused, whatever follows it. -/
def Obligations.ReservedOpselIsRefused : Prop :=
  ∀ op : Byte,
    (op ∈ [0x01#8, 0x02#8, 0x03#8, 0x04#8, 0x10#8, 0x11#8, 0x12#8, 0x13#8, 0x14#8, 0x15#8, 0x20#8, 0x21#8, 0x22#8,
        0x30#8, 0x31#8, 0x32#8, 0x33#8, 0x34#8, 0x35#8, 0x36#8, 0x37#8, 0x38#8] →
      ∃ a i, decode ⟨.opsel, op :: a⟩ = .ok i) ∧
    (op ∉ [0x01#8, 0x02#8, 0x03#8, 0x04#8, 0x10#8, 0x11#8, 0x12#8, 0x13#8, 0x14#8, 0x15#8, 0x20#8, 0x21#8, 0x22#8,
        0x30#8, 0x31#8, 0x32#8, 0x33#8, 0x34#8, 0x35#8, 0x36#8, 0x37#8, 0x38#8] →
      ∀ (a : Bytes) (s : State) (rest : List HostAction), s.pending = .present ⟨.opsel, op :: a⟩ :: rest →
        step s = .refused (.undecoded (.reservedOpsel op)))

/-- R65: a code is known exactly when it is one of 0x90 to 0x98. -/
def Obligations.KnownCodesAreTheNine : Prop :=
  ∀ c : Byte, known c = true ↔ 0x90 ≤ c.toNat ∧ c.toNat ≤ 0x98

/-! ### Steps, configuration, reset -/

/-- A step performs the instruction that the presented bytes decode to, on the state whose sequence of actions has moved on
(the presentation in the place of a fetch is the model's, log 16); and a table word placed by `withFetchWord` is what the
next step runs. -/
def Obligations.StepRunsThePresentedInstruction : Prop :=
  (∀ (s : State) (p : Presentation) (rest : List HostAction) (i : Instr),
    s.pending = .present p :: rest → decode p = .ok i → step s = exec i { s with pending := rest }) ∧
  (∀ (s : State) (nbits w : Nat) (i : Instr), decodeTableWord nbits w = some i →
    step (s.withFetchWord nbits w) = exec i s)

/-- Setting a configuration register always succeeds (R213), sets that register and leaves the other and everything else
(R21, R22, R32). That the outcome presented before is gone is the model's choice (log 21), and so is that the phase of the
host's last exchange stands (log 28). -/
def Obligations.ConfigurationWriteSetsOnlyItsRegister : Prop :=
  ∀ (s : State) (r : CfgIndex) (v : Byte) (rest : List HostAction), s.pending = .cfg r v :: rest →
    step s = .next { s with
      pending := rest
      outcome := none
      connAddr := if r = .connAddr then .set v else s.connAddr
      devAddr := if r = .devAddr then .set v else s.devAddr }

/-- After reset both registers are unset, whatever operation was in flight, and nothing else of the block is reset (R220); the
machine's reset state has them unset. The reset action's shape is the model's (log 17), and so is that an outcome presented
before it is gone where no operation was in flight (log 21), and that the phase of the host's last exchange stands (log 28). -/
def Obligations.ResetLeavesTheRegistersUnset : Prop :=
  (State.reset.connAddr = .unset ∧ State.reset.devAddr = .unset) ∧
  ∀ (s : State) (inFlight : Option Bytes) (rest : List HostAction), s.pending = .reset inFlight :: rest →
    step s = .next { s with pending := rest, outcome := none, connAddr := .unset, devAddr := .unset }

/-- R221. ENC_REQ is refused while `CONN_ADDR` is unset, DEC_AUTH and RX_RESPONSE while `DEV_ADDR` is, and every other
operation on operands of its types answers a next state whatever the registers hold. -/
def Obligations.UnsetRegisterRefusesItsReaders : Prop :=
  ∀ s : State,
    (s.connAddr = .unset → ∀ code, ∃ r, exec (.encReq code) s = .refused r ∧
      (known code = true → r = .connAddrUnset)) ∧
    (s.devAddr = .unset →
      (∀ F, exec (.decAuth F) s = .refused .devAddrUnset) ∧
      ∀ code n RXB, ∃ r, exec (.rxResponse code n RXB) s = .refused r ∧ (known code = true → r = .devAddrUnset)) ∧
    (∀ i : Instr, i.isOperation = true → i.wellFormed = true →
      (∀ code, i ≠ .encReq code) → (∀ F, i ≠ .decAuth F) → (∀ code n RXB, i ≠ .rxResponse code n RXB) →
      ∃ o, exec i s = .next { s with outcome := some o })

/-- With both registers set, every operation on operands of its types answers a next state: no operation of the block is
refused for anything but R203's cases. -/
def Obligations.OperationsAnswerWhenConfigured : Prop :=
  ∀ (s : State) (conn dev : Byte) (i : Instr), s.connAddr = .set conn → s.devAddr = .set dev →
    i.isOperation = true → i.wellFormed = true → ∃ o, exec i s = .next { s with outcome := some o }

/-- The refusals of R203 that a meaning makes are these and no others. An operation is refused for an operand outside its type
and for an unset register that it reads; a wire command while `CONN_ADDR` is unset, and while `DEV_ADDR` is, once all of its
request was accepted and its whole response is there to be read (that it is ENC_REQ and then RX_RESPONSE, log 6; that an
exchange with too few bytes ends, log 27). -/
def Obligations.OperationsRefuseExactlyWhen : Prop :=
  (∀ (s : State) (i : Instr), i.isOperation = true →
    ((∃ r, exec i s = .refused r) ↔
      i.wellFormed = false ∨ ((∃ code, i = .encReq code) ∧ s.connAddr = .unset) ∨
        (((∃ F, i = .decAuth F) ∨ ∃ code n RXB, i = .rxResponse code n RXB) ∧ s.devAddr = .unset))) ∧
  ∀ (s : State) (cmd : Command) (n : Byte) (N : Nat), Completes (.framecount cmd.code n) s (.int N) →
    (s.connAddr = .unset → exec (commandInstr cmd n) s = .refused .connAddrUnset) ∧
    (∀ conn, s.connAddr = .set conn →
      (s.devAddr = .unset → s.linkEvent.written = 13 → 13 * N ≤ (s.linkRx ++ s.linkEvent.reply).length →
        exec (commandInstr cmd n) s = .refused .devAddrUnset) ∧
      ((∃ dev, s.devAddr = .set dev) ∨ s.linkEvent.written ≠ 13 ∨
          (s.linkRx ++ s.linkEvent.reply).length < 13 * N →
        ∃ t, exec (commandInstr cmd n) s = .next t))

/-- R73, its two bullets: a code outside `KNOWN` is refused as an operand, and is a `HeaderMismatch` in a received frame
that passed the length and checksum checks. As the selector of a wire command it is refused too, whatever follows it (that
it is a selector of its own, log 5). -/
def Obligations.UnknownCodeIsRefusedOrAHeaderMismatch : Prop :=
  ∀ (s : State) (c : Byte), ¬ (0x90 ≤ c.toNat ∧ c.toNat ≤ 0x98) →
    exec (.encReq c) s = .refused (.unknownCode c) ∧
    (∀ n, exec (.framecount c n) s = .refused (.unknownCode c)) ∧
    (∀ n RXB, exec (.rxResponse c n RXB) s = .refused (.unknownCode c)) ∧
    (∀ F : Bytes, F.length = 13 → F[2]? = some c → F[12]? = some (byteSum (F.take 12)) →
      Fails (.decFrame F) s .headerMismatch) ∧
    ∀ (a : Bytes) (rest : List HostAction), s.pending = .present ⟨.wireCmd, c :: a⟩ :: rest →
      step s = .refused (.undecoded (.reservedCode c))

/-- R128. Every operation of the byte codec is total on operands of its types and raises nothing; a `k` above 3 is refused;
an `idx` of 8 or more gives false. -/
def Obligations.ByteCodecIsTotal : Prop :=
  ∀ (s : State) (h l k b2 b3 : Byte) (off : BitVec 16),
    (∃ v, Completes (.u16be h l) s v) ∧ (∃ v, Completes (.u32be h l b2 b3) s v) ∧
    (∃ v, Completes (.offbyte h l) s v) ∧ (∃ v, Completes (.bit h l) s v) ∧
    (8 ≤ l.toNat → Completes (.bit h l) s (.bool false)) ∧
    (k.toNat ≤ 3 → (∃ v, Completes (.scaled h l k) s v) ∧ ∃ v, Completes (.offscaled h l off k) s v) ∧
    (3 < k.toNat → exec (.scaled h l k) s = .refused (.exponentOutsideType k) ∧
      exec (.offscaled h l off k) s = .refused (.exponentOutsideType k))

/-! ### Frame codec -/

/-- R100. ENC_REQ builds the 13-byte request: marker, `CONN_ADDR`, code, 8, eight zeros, and the sum of the first twelve in
8-bit arithmetic; it is refused for an unknown code or while `CONN_ADDR` is unset, and raises nothing. -/
def Obligations.EncReqBuildsTheRequestFrame : Prop :=
  ∀ (s : State) (code : Byte),
    (0x90 ≤ code.toNat → code.toNat ≤ 0x98 →
      (∀ conn, s.connAddr = .set conn → ∃ f : Frame, Completes (.encReq code) s (.frame f) ∧
        f.bytes = [0xA5#8, conn, code, 0x08#8, 0#8, 0#8, 0#8, 0#8, 0#8, 0#8, 0#8, 0#8, 0xAD#8 + conn + code]) ∧
      (s.connAddr = .unset → exec (.encReq code) s = .refused .connAddrUnset)) ∧
    (¬ (0x90 ≤ code.toNat ∧ code.toNat ≤ 0x98) → exec (.encReq code) s = .refused (.unknownCode code))

/-- R101, R63. CHKSUM of any bytes is their sum modulo 256, which is their sum in 8-bit arithmetic. -/
def Obligations.ChksumIsTheWraparoundSum : Prop :=
  ∀ (s : State) (B : Bytes), ∃ b : Byte, Completes (.chksum B) s (.byte b) ∧
    b = byteSum B ∧ b.toNat = (B.map BitVec.toNat).sum % 256

/-- R102 (and R204's order). DEC_FRAME accepts exactly the valid frames of a known code and returns their code, address and
payload; otherwise the length is checked first, then the checksum, then the header. -/
def Obligations.DecFrameChecksInOrder : Prop :=
  ∀ (s : State) (F : Bytes),
    (∀ d : DecodedFrame, Completes (.decFrame F) s (.decoded d) ↔
      F = validFrame d.addr d.code d.payload ∧ 0x90 ≤ d.code.toNat ∧ d.code.toNat ≤ 0x98) ∧
    (F.length ≠ 13 → Fails (.decFrame F) s .lengthMismatch) ∧
    (F.length = 13 → F[12]? ≠ some (byteSum (F.take 12)) → Fails (.decFrame F) s .checksumMismatch) ∧
    (F.length = 13 → F[12]? = some (byteSum (F.take 12)) →
      (F[0]? ≠ some 0xA5#8 ∨ F[3]? ≠ some 0x08#8 ∨ ∀ c, F[2]? = some c → ¬ (0x90 ≤ c.toNat ∧ c.toNat ≤ 0x98)) →
      Fails (.decFrame F) s .headerMismatch)

/-- R103. DEC_AUTH is DEC_FRAME and then the address check; DEC_FRAME's errors propagate unchanged; it is refused while
`DEV_ADDR` is unset. -/
def Obligations.DecAuthChecksTheAddressLast : Prop :=
  ∀ (s : State) (F : Bytes),
    (s.devAddr = .unset → exec (.decAuth F) s = .refused .devAddrUnset) ∧
    ∀ dev, s.devAddr = .set dev →
      (∃ d, Completes (.decFrame F) s (.decoded d) ∧
        (d.addr = dev → Completes (.decAuth F) s (.authenticated d.code d.payload)) ∧
        (d.addr ≠ dev → Fails (.decAuth F) s .headerMismatch)) ∨
      (∃ e, Fails (.decFrame F) s e ∧ Fails (.decAuth F) s e)

/-- R103's success as a completion: a valid frame from `DEV_ADDR` is authenticated. -/
def Obligations.DecAuthAcceptsTheConfiguredDevice : Prop :=
  ∀ (s : State) (dev code : Byte) (p : Payload), s.devAddr = .set dev → 0x90 ≤ code.toNat → code.toNat ≤ 0x98 →
    Completes (.decAuth (validFrame dev code p)) s (.authenticated code p)

/-- R104. Decoding an encoded request gives its code, `CONN_ADDR` and eight zeros. -/
def Obligations.DecFrameOfEncReq : Prop :=
  ∀ (s : State) (conn code : Byte), s.connAddr = .set conn → 0x90 ≤ code.toNat → code.toNat ≤ 0x98 →
    ∃ f : Frame, Completes (.encReq code) s (.frame f) ∧
      Completes (.decFrame f.bytes) s (.decoded ⟨code, conn, ⟨0#8, 0#8, 0#8, 0#8, 0#8, 0#8, 0#8, 0#8⟩⟩)

/-- R105. A 13-byte frame whose last byte is not its checksum is never accepted, by DEC_FRAME or by DEC_AUTH. -/
def Obligations.CorruptedChecksumIsNeverAccepted : Prop :=
  ∀ (s : State) (F : Bytes) (x : Byte), F.length = 13 → x ≠ byteSum (F.take 12) →
    Fails (.decFrame (F.set 12 x)) s .checksumMismatch ∧
    ∀ dev, s.devAddr = .set dev → Fails (.decAuth (F.set 12 x)) s .checksumMismatch

/-- R106. A request looped back is authenticated exactly when the two configuration values are equal; otherwise it is
rejected with `HeaderMismatch`. -/
def Obligations.LoopbackIsAcceptedOnlyForEqualAddresses : Prop :=
  ∀ (s : State) (conn dev code : Byte), s.connAddr = .set conn → s.devAddr = .set dev →
    0x90 ≤ code.toNat → code.toNat ≤ 0x98 →
    ∃ f : Frame, Completes (.encReq code) s (.frame f) ∧
      (conn = dev → ∃ v, Completes (.decAuth f.bytes) s v) ∧
      (conn ≠ dev → Fails (.decAuth f.bytes) s .headerMismatch)

/-! ### Byte codec -/

/-- R120, R121. The first byte is the more significant: the result is the number the bytes spell, most significant first. -/
def Obligations.WordsAreBigEndian : Prop :=
  ∀ (s : State) (b0 b1 b2 b3 : Byte),
    Completes (.u16be b0 b1) s (.int ((b0 ++ b1).toNat : Int)) ∧
    Completes (.u32be b0 b1 b2 b3) s (.int ((b0 ++ b1 ++ b2 ++ b3).toNat : Int))

/-- R122. SCALED is exactly the 16-bit value times `10^(-k)`. -/
def Obligations.ScaledIsExact : Prop :=
  ∀ (s : State) (h l k : Byte), k.toNat ≤ 3 → ∃ x : Fixed, Completes (.scaled h l k) s (.fixed x) ∧
    x.mantissa = ((h ++ l).toNat : Int) ∧ x.exponent = k.toNat ∧
    fixedValue x * 10 ^ k.toNat = ((h ++ l).toNat : ℚ)

/-- R123. OFFSCALED subtracts first, exactly and without wrapping, and then scales. -/
def Obligations.OffscaledSubtractsWithoutWrapping : Prop :=
  ∀ (s : State) (h l k : Byte) (off : BitVec 16), k.toNat ≤ 3 →
    ∃ x : Fixed, Completes (.offscaled h l off k) s (.fixed x) ∧
      x.mantissa + off.toNat = ((h ++ l).toNat : Int) ∧ x.exponent = k.toNat ∧
      fixedValue x * 10 ^ k.toNat + off.toNat = ((h ++ l).toNat : ℚ)

/-- R124. OFFBYTE is the exact difference, negative for `raw < off`. -/
def Obligations.OffbyteSubtractsWithoutWrapping : Prop :=
  ∀ (s : State) (raw off : Byte), ∃ z : Int, Completes (.offbyte raw off) s (.int z) ∧
    z + off.toNat = raw.toNat ∧ (z < 0 ↔ raw.toNat < off.toNat)

/-- R125. BIT is bit `idx` of the byte, and false for `idx >= 8`. -/
def Obligations.BitTestsTheIndexedBit : Prop :=
  ∀ (s : State) (v idx : Byte), Completes (.bit v idx) s (.bool (v.getLsbD idx.toNat))

/-- R126 and R5: fixed values equal as numbers give the same host number, whatever `FLOAT_CONV` is. -/
def Obligations.EqualFixedValuesGiveEqualHostNumbers : Prop :=
  ∀ (HostNumber : Type) (floatConv : ℚ → HostNumber) (x y : Fixed),
    x.mantissa * 10 ^ y.exponent = y.mantissa * 10 ^ x.exponent → toHost floatConv x = toHost floatConv y

/-! ### Frame count, reassembly, receive pipeline -/

/-- R140. FRAMECOUNT is the least number of frames that hold the count, three cells or seven sensors to a frame, at most 85,
and 1 for every other command; an unknown code is refused. -/
def Obligations.FramecountIsTheCeiling : Prop :=
  ∀ (s : State) (code n : Byte),
    (0x90 ≤ code.toNat → code.toNat ≤ 0x98 → ∃ N : Nat, Completes (.framecount code n) s (.int N) ∧ N ≤ 85 ∧
      (code = 0x95#8 → n.toNat ≤ 3 * N ∧ 3 * N < n.toNat + 3) ∧
      (code = 0x96#8 → n.toNat ≤ 7 * N ∧ 7 * N < n.toNat + 7) ∧
      (code ≠ 0x95#8 → code ≠ 0x96#8 → N = 1)) ∧
    (¬ (0x90 ≤ code.toNat ∧ code.toNat ≤ 0x98) → exec (.framecount code n) s = .refused (.unknownCode code))

/-- R141. REASM succeeds exactly when the sequence ids are 1 to N, each once, in any order; the stream is then `7 * N` bytes
long and holds each payload's data region at its id's place; otherwise it raises `IncompleteFrames`. -/
def Obligations.ReasmOrdersBySequenceId : Prop :=
  ∀ (s : State) (P : List Payload) (N : Nat),
    ((P.map fun p => p.b0.toNat).Perm (List.range' 1 N) → ∃ S : Bytes, Completes (.reasm P N) s (.stream S) ∧
      S.length = 7 * N ∧
      ∀ p ∈ P, (S.drop (7 * (p.b0.toNat - 1))).take 7 = [p.b1, p.b2, p.b3, p.b4, p.b5, p.b6, p.b7]) ∧
    (¬ (P.map fun p => p.b0.toNat).Perm (List.range' 1 N) → Fails (.reasm P N) s .incompleteFrames)

/-- R141: the order in which the frames arrived does not matter. -/
def Obligations.ReasmIgnoresArrivalOrder : Prop :=
  ∀ (s : State) (P Q : List Payload) (N : Nat), P.Perm Q → exec (.reasm P N) s = exec (.reasm Q N) s

/-- R142 and R204, first checks: with `DEV_ADDR` set RX_RESPONSE answers for every known code, count and buffer, and a
buffer shorter than `13 * N` raises `InvalidResponseLength`, whatever it holds. -/
def Obligations.RxShortBufferIsReportedFirst : Prop :=
  ∀ (s : State) (code n dev : Byte) (RXB : Bytes) (N : Nat), s.devAddr = .set dev →
    Completes (.framecount code n) s (.int N) →
    (∃ o, exec (.rxResponse code n RXB) s = .next { s with outcome := some o }) ∧
    (RXB.length < 13 * N → Fails (.rxResponse code n RXB) s .invalidResponseLength)

/-- R142 and R204, steps 2 and 3: the first chunk that DEC_AUTH rejects decides, whatever the codes of the chunks before it;
when DEC_AUTH accepts every chunk, a chunk with another code raises `IncompleteFrames`. -/
def Obligations.RxDecodesEveryChunkBeforeComparingCodes : Prop :=
  ∀ (s : State) (code n dev : Byte) (RXB : Bytes) (N k : Nat), s.devAddr = .set dev →
    Completes (.framecount code n) s (.int N) → 13 * N ≤ RXB.length → k < N →
    (∀ e, Fails (.decAuth ((RXB.drop (13 * k)).take 13)) s e →
      (∀ j < k, ∃ c p, Completes (.decAuth ((RXB.drop (13 * j)).take 13)) s (.authenticated c p)) →
      Fails (.rxResponse code n RXB) s e) ∧
    (∀ c p, Completes (.decAuth ((RXB.drop (13 * k)).take 13)) s (.authenticated c p) → c ≠ code →
      (∀ j < N, ∃ c p, Completes (.decAuth ((RXB.drop (13 * j)).take 13)) s (.authenticated c p)) →
      Fails (.rxResponse code n RXB) s .incompleteFrames)

/-- R142: bytes past `13 * N` are ignored. -/
def Obligations.RxIgnoresBytesPastTheFrames : Prop :=
  ∀ (s : State) (code n : Byte) (N : Nat) (A B : Bytes), Completes (.framecount code n) s (.int N) →
    A.length = 13 * N → exec (.rxResponse code n (A ++ B)) s = exec (.rxResponse code n A) s

/-- R142, R169: on a response of one valid frame from `DEV_ADDR`, with anything after it, RX_RESPONSE ends as the command's
profile does on the payload. -/
def Obligations.RxOfOneValidFrameIsTheProfile : Prop :=
  ∀ (s : State) (dev n : Byte) (p : Payload) (extra : Bytes), s.devAddr = .set dev →
    (∃ r, Completes (.pSoc p) s (.record r) ∧
      Completes (.rxResponse 0x90#8 n (validFrame dev 0x90#8 p ++ extra)) s (.record r)) ∧
    (∃ r, Completes (.pCvlim p) s (.record r) ∧
      Completes (.rxResponse 0x91#8 n (validFrame dev 0x91#8 p ++ extra)) s (.record r)) ∧
    (∃ r, Completes (.pCtlim p) s (.record r) ∧
      Completes (.rxResponse 0x92#8 n (validFrame dev 0x92#8 p ++ extra)) s (.record r)) ∧
    (p.b0.toNat ≤ 2 → ∃ r, Completes (.pMosfet p) s (.record r) ∧
      Completes (.rxResponse 0x93#8 n (validFrame dev 0x93#8 p ++ extra)) s (.record r)) ∧
    (2 < p.b0.toNat → Fails (.pMosfet p) s .invalidEnumValue ∧
      Fails (.rxResponse 0x93#8 n (validFrame dev 0x93#8 p ++ extra)) s .invalidEnumValue) ∧
    (∃ r, Completes (.pStatus p) s (.record r) ∧
      Completes (.rxResponse 0x94#8 n (validFrame dev 0x94#8 p ++ extra)) s (.record r)) ∧
    (n.toNat ≤ 64 → ∃ r, Completes (.pBal p n) s (.record r) ∧
      Completes (.rxResponse 0x97#8 n (validFrame dev 0x97#8 p ++ extra)) s (.record r)) ∧
    (64 < n.toNat → Fails (.pBal p n) s .incompleteFrames ∧
      Fails (.rxResponse 0x97#8 n (validFrame dev 0x97#8 p ++ extra)) s .incompleteFrames) ∧
    (∃ r, Completes (.pFail p) s (.record r) ∧
      Completes (.rxResponse 0x98#8 n (validFrame dev 0x98#8 p ++ extra)) s (.record r))

/-- R142, R68, R169: on a response of valid frames with sequence ids 1 to N in any order, RX_RESPONSE reassembles and ends as
the profile does on the stream; with other ids it raises `IncompleteFrames`. -/
def Obligations.RxOfValidFramesReassembles : Prop :=
  ∀ (s : State) (dev n : Byte) (P : List Payload) (extra : Bytes), s.devAddr = .set dev →
    ((P.map fun p => p.b0.toNat).Perm (List.range' 1 ((n.toNat + 2) / 3)) →
      ∃ S r, Completes (.reasm P ((n.toNat + 2) / 3)) s (.stream S) ∧ Completes (.pCellv S n) s (.record r) ∧
        Completes (.rxResponse 0x95#8 n (P.flatMap (validFrame dev 0x95#8) ++ extra)) s (.record r)) ∧
    ((P.map fun p => p.b0.toNat).Perm (List.range' 1 ((n.toNat + 6) / 7)) →
      ∃ S r, Completes (.reasm P ((n.toNat + 6) / 7)) s (.stream S) ∧ Completes (.pCellt S n) s (.record r) ∧
        Completes (.rxResponse 0x96#8 n (P.flatMap (validFrame dev 0x96#8) ++ extra)) s (.record r)) ∧
    (P.length = (n.toNat + 2) / 3 → ¬ (P.map fun p => p.b0.toNat).Perm (List.range' 1 ((n.toNat + 2) / 3)) →
      Fails (.rxResponse 0x95#8 n (P.flatMap (validFrame dev 0x95#8) ++ extra)) s .incompleteFrames) ∧
    (P.length = (n.toNat + 6) / 7 → ¬ (P.map fun p => p.b0.toNat).Perm (List.range' 1 ((n.toNat + 6) / 7)) →
      Fails (.rxResponse 0x96#8 n (P.flatMap (validFrame dev 0x96#8) ++ extra)) s .incompleteFrames)

/-- R145: after a successful REASM the profile's "shorter than required" check never fails, in either reading of C2, and the
list has one entry a cell or sensor. -/
def Obligations.ReassembledStreamIsLongEnough : Prop :=
  ∀ (s : State) (P : List Payload) (n : Byte) (S : Bytes),
    (Completes (.reasm P ((n.toNat + 2) / 3)) s (.stream S) →
      ∃ l, Completes (.pCellv S n) s (.record (.cellVoltages l)) ∧ l.length = n.toNat) ∧
    (Completes (.reasm P ((n.toNat + 6) / 7)) s (.stream S) →
      ∃ l, Completes (.pCellt S n) s (.record (.cellTemperatures l)) ∧ l.length = n.toNat)

/-- R200's column "raised by": an operation raises no kind that the table does not give it, and none raises
`TransmitFailed`. -/
def Obligations.ErrorKindsComeFromTheirOperations : Prop :=
  ∀ (i : Instr) (s t : State) (e : ErrorKind), i.isOperation = true → exec i s = .next t →
    t.outcome = some (.err e) → mayRaise e i

/-- R200's numeric codes: 0 for `Ok`, 1 to 7 for the kinds in its order. -/
def Obligations.OutcomeCodesAreThoseOfTheTable : Prop :=
  (∀ v, (OpOutcome.ok v).code = 0) ∧
  ([ErrorKind.lengthMismatch, .checksumMismatch, .headerMismatch, .incompleteFrames, .invalidEnumValue,
    .invalidResponseLength, .transmitFailed].map fun e => (OpOutcome.err e).code) = [1, 2, 3, 4, 5, 6, 7]

/-! ### Profiles -/

/-- R160. P_SOC completes: two voltages and the state of charge are 16-bit values scaled by 0.1, the current is offset by
30000 before the same scale. -/
def Obligations.StateOfChargeFields : Prop :=
  ∀ (s : State) (p : Payload), Completes (.pSoc p) s (.record (.stateOfCharge
    ⟨⟨((p.b0 ++ p.b1).toNat : Int), 1⟩, ⟨((p.b2 ++ p.b3).toNat : Int), 1⟩, ⟨((p.b4 ++ p.b5).toNat : Int) - 30000, 1⟩,
      ⟨((p.b6 ++ p.b7).toNat : Int), 1⟩⟩))

/-- R161, R162. P_CVLIM and P_CTLIM complete: voltages scaled by 0.001, temperatures offset by 40, indices raw. -/
def Obligations.LimitsFields : Prop :=
  ∀ (s : State) (p : Payload),
    Completes (.pCvlim p) s (.record (.cellVoltageLimits
      ⟨⟨((p.b0 ++ p.b1).toNat : Int), 3⟩, p.b2, ⟨((p.b3 ++ p.b4).toNat : Int), 3⟩, p.b5⟩)) ∧
    Completes (.pCtlim p) s (.record (.cellTemperatureLimits
      ⟨(p.b0.toNat : Int) - 40, p.b1, (p.b2.toNat : Int) - 40, p.b3⟩))

/-- R163. P_MOSFET completes with bytes 1 to 3 raw and a 32-bit capacity when byte 0 is 0, 1 or 2, which name the charge
state; above 2 it raises `InvalidEnumValue`, whatever the other bytes hold. -/
def Obligations.MosfetStatusFields : Prop :=
  ∀ (s : State) (p : Payload),
    (p.b0.toNat ≤ 2 → ∃ st : ChargeState,
      Completes (.pMosfet p) s (.record (.mosfetStatus
        ⟨st, p.b1, p.b2, p.b3, ((p.b4 ++ p.b5 ++ p.b6 ++ p.b7).toNat : Int)⟩)) ∧
      (st = .idle ↔ p.b0 = 0#8) ∧ (st = .charging ↔ p.b0 = 1#8) ∧ (st = .discharging ↔ p.b0 = 2#8)) ∧
    (2 < p.b0.toNat → Fails (.pMosfet p) s .invalidEnumValue)

/-- R164. P_STATUS completes: two counts, two flags true for any non-zero byte, `di1` to `di4` from bits 0 to 3 of byte 4 and
`do1` to `do4` from bits 4 to 7. -/
def Obligations.StatusInformationFields : Prop :=
  ∀ (s : State) (p : Payload), Completes (.pStatus p) s (.record (.statusInformation
    ⟨p.b0, p.b1, p.b2 != 0#8, p.b3 != 0#8, p.b4.getLsbD 0, p.b4.getLsbD 1, p.b4.getLsbD 2, p.b4.getLsbD 3,
      p.b4.getLsbD 4, p.b4.getLsbD 5, p.b4.getLsbD 6, p.b4.getLsbD 7⟩))

/-- R165. P_FAIL completes: the backing word is bytes 6 to 0 under eight zero bits, flag `f` is its bit `f`, and byte 7 is the code. -/
def Obligations.FailureStatusFields : Prop :=
  ∀ (s : State) (p : Payload), ∃ r : FailureStatus, Completes (.pFail p) s (.record (.failureStatus r)) ∧
    r.word = 0#8 ++ p.b6 ++ p.b5 ++ p.b4 ++ p.b3 ++ p.b2 ++ p.b1 ++ p.b0 ∧
    r.flags.length = 56 ∧ (∀ f < 56, r.flags[f]? = some (r.word.getLsbD f)) ∧
    (∀ j < 7, ∀ b < 8, r.flags[8 * j + b]? = some ((p.bytes.getD j 0#8).getLsbD b)) ∧
    r.faultCode = p.b7

/-- R166, in both readings of C2. Read contiguously, cell `i` is bytes `2i` and `2i+1` of the stream. With
`CELLV_PAD_SKIP`, byte 6 of each 7-byte region is no data: the data byte `j` stands at `j + j/6`, and a stream of `L` bytes
has `L - L/7` of them. Too few data bytes raise `IncompleteFrames`. -/
def Obligations.CellVoltagesOfAStream : Prop :=
  ∀ (s : State) (S : Bytes) (n : Byte),
    (s.cellvPadSkip = false →
      (S.length < 2 * n.toNat → Fails (.pCellv S n) s .incompleteFrames) ∧
      (2 * n.toNat ≤ S.length → ∃ l, Completes (.pCellv S n) s (.record (.cellVoltages l)) ∧ l.length = n.toNat ∧
        ∀ i < n.toNat, l[i]? = some ⟨((S.getD (2 * i) 0#8 ++ S.getD (2 * i + 1) 0#8).toNat : Int), 3⟩)) ∧
    (s.cellvPadSkip = true →
      (S.length - S.length / 7 < 2 * n.toNat → Fails (.pCellv S n) s .incompleteFrames) ∧
      (2 * n.toNat ≤ S.length - S.length / 7 →
        ∃ l, Completes (.pCellv S n) s (.record (.cellVoltages l)) ∧ l.length = n.toNat ∧
        ∀ i < n.toNat, l[i]? = some ⟨((S.getD (2 * i + 2 * i / 6) 0#8 ++
          S.getD (2 * i + 1 + (2 * i + 1) / 6) 0#8).toNat : Int), 3⟩))

/-- R167. P_CELLT gives byte `i` of the stream less 40 for each of the `n` sensors, and `IncompleteFrames` on a shorter
stream. -/
def Obligations.CellTemperaturesOfAStream : Prop :=
  ∀ (s : State) (S : Bytes) (n : Byte),
    (S.length < n.toNat → Fails (.pCellt S n) s .incompleteFrames) ∧
    (n.toNat ≤ S.length → ∃ l, Completes (.pCellt S n) s (.record (.cellTemperatures l)) ∧ l.length = n.toNat ∧
      ∀ i < n.toNat, l[i]? = some (((S.getD i 0#8).toNat : Int) - 40))

/-- R168 (C1): cell `i` is bit `i` of the payload read as a 64-bit number, byte 0 the least significant. -/
def Obligations.BalanceStatesOfAPayload : Prop :=
  ∀ (s : State) (p : Payload) (n : Byte),
    (64 < n.toNat → Fails (.pBal p n) s .incompleteFrames) ∧
    (n.toNat ≤ 64 → ∃ l, Completes (.pBal p n) s (.record (.balanceStates l)) ∧ l.length = n.toNat ∧
      ∀ i < n.toNat, l[i]? = some
        ((p.b7 ++ p.b6 ++ p.b5 ++ p.b4 ++ p.b3 ++ p.b2 ++ p.b1 ++ p.b0 : BitVec 64).getLsbD i))

/-- R170: the bytes and bits that no field names never affect the outcome. -/
def Obligations.UnnamedBytesNeverMatter : Prop :=
  ∀ (s : State) (p q : Payload) (n : Byte) (S T : Bytes),
    (p.b0 = q.b0 → p.b1 = q.b1 → p.b2 = q.b2 → p.b3 = q.b3 → exec (.pCtlim p) s = exec (.pCtlim q) s) ∧
    (p.b0 = q.b0 → p.b1 = q.b1 → p.b2 = q.b2 → p.b3 = q.b3 → p.b4 = q.b4 →
      exec (.pStatus p) s = exec (.pStatus q) s) ∧
    (p.b0 = q.b0 → p.b1 = q.b1 → p.b2 = q.b2 → p.b3 = q.b3 → p.b4 = q.b4 → p.b5 = q.b5 →
      exec (.pCvlim p) s = exec (.pCvlim q) s) ∧
    ((∀ i < n.toNat, (p.b7 ++ p.b6 ++ p.b5 ++ p.b4 ++ p.b3 ++ p.b2 ++ p.b1 ++ p.b0 : BitVec 64).getLsbD i =
        (q.b7 ++ q.b6 ++ q.b5 ++ q.b4 ++ q.b3 ++ q.b2 ++ q.b1 ++ q.b0 : BitVec 64).getLsbD i) →
      exec (.pBal p n) s = exec (.pBal q n) s) ∧
    (S.length = T.length → (∀ i < n.toNat, S[i]? = T[i]?) → exec (.pCellt S n) s = exec (.pCellt T n) s) ∧
    (s.cellvPadSkip = false → S.length = T.length → (∀ i < 2 * n.toNat, S[i]? = T[i]?) →
      exec (.pCellv S n) s = exec (.pCellv T n) s) ∧
    (s.cellvPadSkip = true → S.length = T.length →
      (∀ i < 2 * n.toNat + 2 * n.toNat / 6, i % 7 ≠ 6 → S[i]? = T[i]?) →
      exec (.pCellv S n) s = exec (.pCellv T n) s)

/-! ### Wire commands: the host's exchange (R225; that they are one, log 6) -/

/-- The single-frame commands complete: when a valid frame from `DEV_ADDR` with the command's code is what the link gives
first (a stale one as well as a fresh one, R144), the request of R100 goes out, exactly that frame is read, the profile's
record is returned, and Status fills the count cache (R225, R29). -/
def Obligations.SingleFrameExchangeCompletes : Prop :=
  ∀ (s : State) (conn dev n : Byte) (p : Payload) (rest : Bytes),
    (s.replyWaits conn dev (validFrame dev 0x90#8 p) rest → ∃ r, Completes (.pSoc p) s (.record r) ∧
      exec .cmdStateOfCharge s = .next (s.afterExchange (requestFrame conn 0x90#8) rest r s.countCache)) ∧
    (s.replyWaits conn dev (validFrame dev 0x91#8 p) rest → ∃ r, Completes (.pCvlim p) s (.record r) ∧
      exec .cmdCellVoltageLimits s = .next (s.afterExchange (requestFrame conn 0x91#8) rest r s.countCache)) ∧
    (s.replyWaits conn dev (validFrame dev 0x92#8 p) rest → ∃ r, Completes (.pCtlim p) s (.record r) ∧
      exec .cmdCellTemperatureLimits s = .next (s.afterExchange (requestFrame conn 0x92#8) rest r s.countCache)) ∧
    (s.replyWaits conn dev (validFrame dev 0x93#8 p) rest → p.b0.toNat ≤ 2 →
      ∃ r, Completes (.pMosfet p) s (.record r) ∧
      exec .cmdMosfetStatus s = .next (s.afterExchange (requestFrame conn 0x93#8) rest r s.countCache)) ∧
    (s.replyWaits conn dev (validFrame dev 0x94#8 p) rest →
      ∃ r, Completes (.pStatus p) s (.record (.statusInformation r)) ∧
      exec .cmdStatus s = .next (s.afterExchange (requestFrame conn 0x94#8) rest (.statusInformation r)
        (some ⟨dev, p.b0, p.b1⟩))) ∧
    (s.replyWaits conn dev (validFrame dev 0x97#8 p) rest → n.toNat ≤ 64 →
      ∃ r, Completes (.pBal p n) s (.record r) ∧
      exec (.cmdBalanceStates n) s = .next (s.afterExchange (requestFrame conn 0x97#8) rest r s.countCache)) ∧
    (s.replyWaits conn dev (validFrame dev 0x98#8 p) rest → ∃ r, Completes (.pFail p) s (.record r) ∧
      exec .cmdFailures s = .next (s.afterExchange (requestFrame conn 0x98#8) rest r s.countCache))

/-- The multi-frame commands complete: valid frames with sequence ids 1 to N in any order. -/
def Obligations.MultiFrameExchangeCompletes : Prop :=
  ∀ (s : State) (conn dev n : Byte) (P : List Payload) (rest : Bytes),
    (s.replyWaits conn dev (P.flatMap (validFrame dev 0x95#8)) rest →
      (P.map fun p => p.b0.toNat).Perm (List.range' 1 ((n.toNat + 2) / 3)) →
      ∃ S r, Completes (.reasm P ((n.toNat + 2) / 3)) s (.stream S) ∧ Completes (.pCellv S n) s (.record r) ∧
        exec (.cmdCellVoltages n) s = .next (s.afterExchange (requestFrame conn 0x95#8) rest r s.countCache)) ∧
    (s.replyWaits conn dev (P.flatMap (validFrame dev 0x96#8)) rest →
      (P.map fun p => p.b0.toNat).Perm (List.range' 1 ((n.toNat + 6) / 7)) →
      ∃ S r, Completes (.reasm P ((n.toNat + 6) / 7)) s (.stream S) ∧ Completes (.pCellt S n) s (.record r) ∧
        exec (.cmdTemperatures n) s = .next (s.afterExchange (requestFrame conn 0x96#8) rest r s.countCache))

/-- R223: after every kind of failure (a short write, a timeout, an error of the block) up to 100 bytes are drained, fewer if
fewer are there, and the original failure is reported unchanged. How many bytes a timed-out read takes, and which
bytes arrive after the read, is the environment's input (log 9, log 10); that the caller's timeout expires is assumed
(R229, U15; log 27). -/
def Obligations.FailedExchangeDrainsTheLink : Prop :=
  ∀ (s : State) (conn n : Byte) (cmd : Command) (N : Nat), s.connAddr = .set conn →
    Completes (.framecount cmd.code n) s (.int N) →
    (s.linkEvent.written ≠ 13 → ∃ t, exec (commandInstr cmd n) s = .next t ∧
      t.exchange = .failed (.error .transmitFailed) ∧
      t.linkRx = (s.linkRx ++ s.linkEvent.reply ++ s.linkEvent.late).drop 100) ∧
    (s.linkEvent.written = 13 → (s.linkRx ++ s.linkEvent.reply).length < 13 * N →
      ∃ t, exec (commandInstr cmd n) s = .next t ∧ t.exchange = .failed .timeout ∧
      t.linkRx = ((s.linkRx ++ s.linkEvent.reply).drop s.linkEvent.takenByTimeout ++ s.linkEvent.late).drop 100) ∧
    (s.linkEvent.written = 13 → 13 * N ≤ (s.linkRx ++ s.linkEvent.reply).length →
      ∀ dev e, s.devAddr = .set dev →
      Fails (.rxResponse cmd.code n ((s.linkRx ++ s.linkEvent.reply).take (13 * N))) s e →
      ∃ t, exec (commandInstr cmd n) s = .next t ∧ t.exchange = .failed (.error e) ∧
        t.linkRx = ((s.linkRx ++ s.linkEvent.reply).drop (13 * N) ++ s.linkEvent.late).drop 100)

/-- R225, the steps put together: the bytes accepted are those of ENC_REQ's frame, as many as the transport reports; and
when `13 * N` bytes are there, the exchange ends with RX_RESPONSE's outcome on exactly those. Which bytes went out after a
short write is the model's choice (log 25), that a wire command is an exchange at all is log 6, and that one with too few
bytes ends is log 27. -/
def Obligations.WireCommandRunsTheThreeOperations : Prop :=
  ∀ (s : State) (conn dev n : Byte) (cmd : Command), s.connAddr = .set conn → s.devAddr = .set dev →
    ∃ (f : Frame) (N : Nat) (o : OpOutcome) (t : State),
      Completes (.encReq cmd.code) s (.frame f) ∧ Completes (.framecount cmd.code n) s (.int N) ∧
      exec (.rxResponse cmd.code n ((s.linkRx ++ s.linkEvent.reply).take (13 * N))) s =
        .next { s with outcome := some o } ∧
      exec (commandInstr cmd n) s = .next t ∧
      t.linkTx = s.linkTx ++ f.bytes.take s.linkEvent.written ∧
      (s.linkEvent.written = 13 → 13 * N ≤ (s.linkRx ++ s.linkEvent.reply).length →
        t.outcome = some o ∧
        ((∃ r, o = .ok (.record r) ∧ t.exchange = .decoded r) ∨ ∃ e, o = .err e ∧ t.exchange = .failed (.error e)))

/-- A wire command leaves the block's configuration and the host's further actions as they were, and only adds to what has
been sent. What it takes from the link are the bytes it read, or those the timed-out read took, and in a failure the drain's
100; nothing else on the link changes. The model's choices: one record of `linkEvents` is used up (log 8), late bytes stand
behind the others (log 9), the timed-out read's bytes (log 10), the drain's (log 11), and what a short write sent (log 25). -/
def Obligations.WireCommandFrame : Prop :=
  ∀ (s t : State) (cmd : Command) (n : Byte) (N : Nat), Completes (.framecount cmd.code n) s (.int N) →
    exec (commandInstr cmd n) s = .next t →
    t.connAddr = s.connAddr ∧ t.devAddr = s.devAddr ∧ t.cellvPadSkip = s.cellvPadSkip ∧ t.pending = s.pending ∧
    t.linkEvents = s.linkEvents.tail ∧
    (∃ sent, t.linkTx = s.linkTx ++ sent ∧ sent.length ≤ 13) ∧
    (s.linkEvent.written ≠ 13 → t.linkRx = (s.linkRx ++ s.linkEvent.reply ++ s.linkEvent.late).drop 100) ∧
    (s.linkEvent.written = 13 → (s.linkRx ++ s.linkEvent.reply).length < 13 * N →
      t.linkRx = ((s.linkRx ++ s.linkEvent.reply).drop s.linkEvent.takenByTimeout ++ s.linkEvent.late).drop 100) ∧
    (s.linkEvent.written = 13 → 13 * N ≤ (s.linkRx ++ s.linkEvent.reply).length →
      ((∃ r, t.exchange = .decoded r) ∧
        t.linkRx = (s.linkRx ++ s.linkEvent.reply).drop (13 * N) ++ s.linkEvent.late) ∨
      ((∃ e, t.exchange = .failed (.error e)) ∧
        t.linkRx = ((s.linkRx ++ s.linkEvent.reply).drop (13 * N) ++ s.linkEvent.late).drop 100))

/-- R29: the count cache changes only as the side effect of a successful Status exchange, and then holds that response's
counts, which are the counts the host takes for the next commands to that device (its scoping is log 20). -/
def Obligations.OnlyAStatusExchangeFillsTheCache : Prop :=
  ∀ (s t : State), step s = .next t → t.countCache ≠ s.countCache →
    ∃ rest i dev, s.pending = .present (encode .cmdStatus) :: rest ∧ s.devAddr = .set dev ∧
      t.exchange = .decoded (.statusInformation i) ∧
      t.countCache = some ⟨dev, i.cellCount, i.temperatureSensorCount⟩ ∧
      t.cachedCount .cellVoltages = some i.cellCount ∧ t.cachedCount .balanceStates = some i.cellCount ∧
      t.cachedCount .temperatures = some i.temperatureSensorCount

/-! ### The whole machine -/

/-- R20: an operation's outcome is a function of its operands and the configuration alone. -/
def Obligations.OutcomeDependsOnConfigurationOnly : Prop :=
  ∀ (i : Instr) (s t : State), i.isOperation = true → s.sameConfig t →
    (∀ o, exec i s = .next { s with outcome := some o } → exec i t = .next { t with outcome := some o }) ∧
    (∀ r, exec i s = .refused r → exec i t = .refused r)

/-- R20, R44, R205: whatever its outcome, an operation of the block changes nothing but the outcome presented: no register,
no parameter, nothing of the host's or the link's (that the phase of the host's last exchange stands: the model's, log 28). -/
def Obligations.OperationsChangeOnlyTheOutcome : Prop :=
  ∀ (i : Instr) (s t : State), i.isOperation = true → exec i s = .next t →
    ∃ o, t = { s with outcome := some o }

/-- R47: the outcomes of a sequence of operations are the outcomes of each computed alone, in the order presented. -/
def Obligations.SequenceOutcomesAreComputedAlone : Prop :=
  ∀ (s : State) (ops : List Instr) (conn dev : Byte), s.connAddr = .set conn → s.devAddr = .set dev →
    (∀ i ∈ ops, i.isOperation = true ∧ i.wellFormed = true) →
    s.pending = ops.map (fun i => .present (encode i)) →
    outcomesOver ops.length s = ops.map fun i => outcomeOf (exec i s)

/-- R213, R23: only the host changes a register, by setting it or by reset, and nothing changes `CELLV_PAD_SKIP`. -/
def Obligations.OnlyTheHostChangesTheConfiguration : Prop :=
  ∀ (s t : State), step s = .next t →
    t.cellvPadSkip = s.cellvPadSkip ∧
    (t.connAddr = s.connAddr ∨ (∃ v rest, s.pending = .cfg .connAddr v :: rest ∧ t.connAddr = .set v) ∨
      ∃ f rest, s.pending = .reset f :: rest ∧ t.connAddr = .unset) ∧
    (t.devAddr = s.devAddr ∨ (∃ v rest, s.pending = .cfg .devAddr v :: rest ∧ t.devAddr = .set v) ∨
      ∃ f rest, s.pending = .reset f :: rest ∧ t.devAddr = .unset)

/-- R227: when the host changes `DEV_ADDR` before RX_RESPONSE, the reply is checked against the new value: the outcome is the
one RX_RESPONSE has with the new value, whatever was received. A reply of one or more valid frames from the old address, to
any command and with anything behind it, fails with `HeaderMismatch`, unless the new value is the old one. That the
configuration write presents no outcome is the model's choice (log 21). -/
def Obligations.ReplyIsCheckedAgainstTheNewAddress : Prop :=
  ∀ (s : State) (new code n : Byte) (RXB : Bytes) (rest : List HostAction), 0x90 ≤ code.toNat → code.toNat ≤ 0x98 →
    s.pending = .cfg .devAddr new :: .present (encode (.rxResponse code n RXB)) :: rest →
    (∃ o, exec (.rxResponse code n RXB) { s with devAddr := .set new } =
        .next { s with devAddr := .set new, outcome := some o } ∧
      outcomesOver 2 s = [none, some o]) ∧
    ∀ (old : Byte) (P : List Payload) (extra : Bytes), Completes (.framecount code n) s (.int P.length) → P ≠ [] →
      RXB = P.flatMap (validFrame old code) ++ extra →
      (old ≠ new → outcomesOver 2 s = [none, some (.err .headerMismatch)]) ∧
      (old = new → ∃ o, outcomesOver 2 s = [none, some o] ∧ o ≠ .err .headerMismatch)

/-- Every step keeps the invariant: the outcome presented is one the block can give (its result type, R27, R127; its error
kinds, R200), and no exchange is left under way (R222; that every exchange ends rests on the timeout's expiry, log 27). -/
def Obligations.StepKeepsTheInvariant : Prop :=
  ∀ s t : State, s.Inv → step s = .next t → t.Inv

/-- The invariant holds after reset. -/
def Obligations.ResetMeetsTheInvariant : Prop := State.reset.Inv
end

