-- ==== Sys2Proof/Laws/State.lean ====
section
/-! SUPPORT. Each field after each update of State, so that no later proof unfolds a record update. -/

namespace Sys2Proof.Machine

variable (s : State)

@[simp] theorem withOutcome_connAddr (o : OpOutcome) : (s.withOutcome o).connAddr = s.connAddr := rfl
@[simp] theorem withOutcome_devAddr (o : OpOutcome) : (s.withOutcome o).devAddr = s.devAddr := rfl
@[simp] theorem withOutcome_cellvPadSkip (o : OpOutcome) : (s.withOutcome o).cellvPadSkip = s.cellvPadSkip := rfl
@[simp] theorem withOutcome_outcome (o : OpOutcome) : (s.withOutcome o).outcome = some o := rfl
@[simp] theorem withOutcome_pending (o : OpOutcome) : (s.withOutcome o).pending = s.pending := rfl
@[simp] theorem withOutcome_exchange (o : OpOutcome) : (s.withOutcome o).exchange = s.exchange := rfl
@[simp] theorem withOutcome_countCache (o : OpOutcome) : (s.withOutcome o).countCache = s.countCache := rfl
@[simp] theorem withOutcome_linkRx (o : OpOutcome) : (s.withOutcome o).linkRx = s.linkRx := rfl
@[simp] theorem withOutcome_linkTx (o : OpOutcome) : (s.withOutcome o).linkTx = s.linkTx := rfl
@[simp] theorem withOutcome_linkEvents (o : OpOutcome) : (s.withOutcome o).linkEvents = s.linkEvents := rfl

@[simp] theorem clearOutcome_connAddr : s.clearOutcome.connAddr = s.connAddr := rfl
@[simp] theorem clearOutcome_devAddr : s.clearOutcome.devAddr = s.devAddr := rfl
@[simp] theorem clearOutcome_cellvPadSkip : s.clearOutcome.cellvPadSkip = s.cellvPadSkip := rfl
@[simp] theorem clearOutcome_outcome : s.clearOutcome.outcome = none := rfl
@[simp] theorem clearOutcome_pending : s.clearOutcome.pending = s.pending := rfl
@[simp] theorem clearOutcome_exchange : s.clearOutcome.exchange = s.exchange := rfl
@[simp] theorem clearOutcome_countCache : s.clearOutcome.countCache = s.countCache := rfl
@[simp] theorem clearOutcome_linkRx : s.clearOutcome.linkRx = s.linkRx := rfl
@[simp] theorem clearOutcome_linkTx : s.clearOutcome.linkTx = s.linkTx := rfl
@[simp] theorem clearOutcome_linkEvents : s.clearOutcome.linkEvents = s.linkEvents := rfl

@[simp] theorem assertReset_connAddr (f : Option Bytes) : (s.assertReset f).connAddr = .unset := rfl
@[simp] theorem assertReset_devAddr (f : Option Bytes) : (s.assertReset f).devAddr = .unset := rfl
@[simp] theorem assertReset_cellvPadSkip (f : Option Bytes) : (s.assertReset f).cellvPadSkip = s.cellvPadSkip := rfl
@[simp] theorem assertReset_outcome (f : Option Bytes) : (s.assertReset f).outcome = none := rfl
@[simp] theorem assertReset_pending (f : Option Bytes) : (s.assertReset f).pending = s.pending := rfl
@[simp] theorem assertReset_exchange (f : Option Bytes) : (s.assertReset f).exchange = s.exchange := rfl
@[simp] theorem assertReset_countCache (f : Option Bytes) : (s.assertReset f).countCache = s.countCache := rfl
@[simp] theorem assertReset_linkRx (f : Option Bytes) : (s.assertReset f).linkRx = s.linkRx := rfl
@[simp] theorem assertReset_linkTx (f : Option Bytes) : (s.assertReset f).linkTx = s.linkTx := rfl
@[simp] theorem assertReset_linkEvents (f : Option Bytes) : (s.assertReset f).linkEvents = s.linkEvents := rfl

@[simp] theorem idleStep_connAddr : s.idleStep.connAddr = s.connAddr := rfl
@[simp] theorem idleStep_devAddr : s.idleStep.devAddr = s.devAddr := rfl
@[simp] theorem idleStep_cellvPadSkip : s.idleStep.cellvPadSkip = s.cellvPadSkip := rfl
@[simp] theorem idleStep_outcome : s.idleStep.outcome = none := rfl
@[simp] theorem idleStep_pending : s.idleStep.pending = s.pending := rfl
@[simp] theorem idleStep_exchange : s.idleStep.exchange = s.exchange := rfl
@[simp] theorem idleStep_countCache : s.idleStep.countCache = s.countCache := rfl
@[simp] theorem idleStep_linkRx : s.idleStep.linkRx = s.linkRx := rfl
@[simp] theorem idleStep_linkTx : s.idleStep.linkTx = s.linkTx := rfl
@[simp] theorem idleStep_linkEvents : s.idleStep.linkEvents = s.linkEvents := rfl

@[simp] theorem popAction_connAddr : s.popAction.connAddr = s.connAddr := rfl
@[simp] theorem popAction_devAddr : s.popAction.devAddr = s.devAddr := rfl
@[simp] theorem popAction_cellvPadSkip : s.popAction.cellvPadSkip = s.cellvPadSkip := rfl
@[simp] theorem popAction_outcome : s.popAction.outcome = s.outcome := rfl
@[simp] theorem popAction_pending : s.popAction.pending = s.pending.tail := rfl
@[simp] theorem popAction_exchange : s.popAction.exchange = s.exchange := rfl
@[simp] theorem popAction_countCache : s.popAction.countCache = s.countCache := rfl
@[simp] theorem popAction_linkRx : s.popAction.linkRx = s.linkRx := rfl
@[simp] theorem popAction_linkTx : s.popAction.linkTx = s.linkTx := rfl
@[simp] theorem popAction_linkEvents : s.popAction.linkEvents = s.linkEvents := rfl

@[simp] theorem presentNext_connAddr (p : Presentation) : (s.presentNext p).connAddr = s.connAddr := rfl
@[simp] theorem presentNext_devAddr (p : Presentation) : (s.presentNext p).devAddr = s.devAddr := rfl
@[simp] theorem presentNext_cellvPadSkip (p : Presentation) : (s.presentNext p).cellvPadSkip = s.cellvPadSkip := rfl
@[simp] theorem presentNext_outcome (p : Presentation) : (s.presentNext p).outcome = s.outcome := rfl
@[simp] theorem presentNext_pending (p : Presentation) : (s.presentNext p).pending = .present p :: s.pending := rfl
@[simp] theorem presentNext_exchange (p : Presentation) : (s.presentNext p).exchange = s.exchange := rfl
@[simp] theorem presentNext_countCache (p : Presentation) : (s.presentNext p).countCache = s.countCache := rfl
@[simp] theorem presentNext_linkRx (p : Presentation) : (s.presentNext p).linkRx = s.linkRx := rfl
@[simp] theorem presentNext_linkTx (p : Presentation) : (s.presentNext p).linkTx = s.linkTx := rfl
@[simp] theorem presentNext_linkEvents (p : Presentation) : (s.presentNext p).linkEvents = s.linkEvents := rfl

@[simp] theorem sendRequest_connAddr (f : Frame) : (s.sendRequest f).connAddr = s.connAddr := rfl
@[simp] theorem sendRequest_devAddr (f : Frame) : (s.sendRequest f).devAddr = s.devAddr := rfl
@[simp] theorem sendRequest_cellvPadSkip (f : Frame) : (s.sendRequest f).cellvPadSkip = s.cellvPadSkip := rfl
@[simp] theorem sendRequest_outcome (f : Frame) : (s.sendRequest f).outcome = some (.ok (.frame f)) := rfl
@[simp] theorem sendRequest_pending (f : Frame) : (s.sendRequest f).pending = s.pending := rfl
@[simp] theorem sendRequest_exchange (f : Frame) : (s.sendRequest f).exchange = .requestSent := rfl
@[simp] theorem sendRequest_countCache (f : Frame) : (s.sendRequest f).countCache = s.countCache := rfl
@[simp] theorem sendRequest_linkRx (f : Frame) : (s.sendRequest f).linkRx = s.linkRx ++ s.linkEvent.reply := rfl
@[simp] theorem sendRequest_linkTx (f : Frame) : (s.sendRequest f).linkTx = s.linkTx ++ f.bytes.take s.linkEvent.written := rfl
@[simp] theorem sendRequest_linkEvents (f : Frame) : (s.sendRequest f).linkEvents = s.linkEvents.tail := rfl

@[simp] theorem awaitResponse_connAddr (N : Nat) : (s.awaitResponse N).connAddr = s.connAddr := rfl
@[simp] theorem awaitResponse_devAddr (N : Nat) : (s.awaitResponse N).devAddr = s.devAddr := rfl
@[simp] theorem awaitResponse_cellvPadSkip (N : Nat) : (s.awaitResponse N).cellvPadSkip = s.cellvPadSkip := rfl
@[simp] theorem awaitResponse_outcome (N : Nat) : (s.awaitResponse N).outcome = some (.ok (.int N)) := rfl
@[simp] theorem awaitResponse_pending (N : Nat) : (s.awaitResponse N).pending = s.pending := rfl
@[simp] theorem awaitResponse_exchange (N : Nat) : (s.awaitResponse N).exchange = .awaitingResponse := rfl
@[simp] theorem awaitResponse_countCache (N : Nat) : (s.awaitResponse N).countCache = s.countCache := rfl
@[simp] theorem awaitResponse_linkRx (N : Nat) : (s.awaitResponse N).linkRx = s.linkRx := rfl
@[simp] theorem awaitResponse_linkTx (N : Nat) : (s.awaitResponse N).linkTx = s.linkTx := rfl
@[simp] theorem awaitResponse_linkEvents (N : Nat) : (s.awaitResponse N).linkEvents = s.linkEvents := rfl

@[simp] theorem takeRx_connAddr (k : Nat) : (s.takeRx k).connAddr = s.connAddr := rfl
@[simp] theorem takeRx_devAddr (k : Nat) : (s.takeRx k).devAddr = s.devAddr := rfl
@[simp] theorem takeRx_cellvPadSkip (k : Nat) : (s.takeRx k).cellvPadSkip = s.cellvPadSkip := rfl
@[simp] theorem takeRx_outcome (k : Nat) : (s.takeRx k).outcome = s.outcome := rfl
@[simp] theorem takeRx_pending (k : Nat) : (s.takeRx k).pending = s.pending := rfl
@[simp] theorem takeRx_exchange (k : Nat) : (s.takeRx k).exchange = s.exchange := rfl
@[simp] theorem takeRx_countCache (k : Nat) : (s.takeRx k).countCache = s.countCache := rfl
@[simp] theorem takeRx_linkRx (k : Nat) : (s.takeRx k).linkRx = s.linkRx.drop k := rfl
@[simp] theorem takeRx_linkTx (k : Nat) : (s.takeRx k).linkTx = s.linkTx := rfl
@[simp] theorem takeRx_linkEvents (k : Nat) : (s.takeRx k).linkEvents = s.linkEvents := rfl

@[simp] theorem arrive_connAddr (B : Bytes) : (s.arrive B).connAddr = s.connAddr := rfl
@[simp] theorem arrive_devAddr (B : Bytes) : (s.arrive B).devAddr = s.devAddr := rfl
@[simp] theorem arrive_cellvPadSkip (B : Bytes) : (s.arrive B).cellvPadSkip = s.cellvPadSkip := rfl
@[simp] theorem arrive_outcome (B : Bytes) : (s.arrive B).outcome = s.outcome := rfl
@[simp] theorem arrive_pending (B : Bytes) : (s.arrive B).pending = s.pending := rfl
@[simp] theorem arrive_exchange (B : Bytes) : (s.arrive B).exchange = s.exchange := rfl
@[simp] theorem arrive_countCache (B : Bytes) : (s.arrive B).countCache = s.countCache := rfl
@[simp] theorem arrive_linkTx (B : Bytes) : (s.arrive B).linkTx = s.linkTx := rfl
@[simp] theorem arrive_linkEvents (B : Bytes) : (s.arrive B).linkEvents = s.linkEvents := rfl
@[simp] theorem arrive_linkRx (B : Bytes) : (s.arrive B).linkRx = s.linkRx ++ B := rfl

@[simp] theorem failExchange_connAddr (f : ExchangeFailure) : (s.failExchange f).connAddr = s.connAddr := rfl
@[simp] theorem failExchange_devAddr (f : ExchangeFailure) : (s.failExchange f).devAddr = s.devAddr := rfl
@[simp] theorem failExchange_cellvPadSkip (f : ExchangeFailure) : (s.failExchange f).cellvPadSkip = s.cellvPadSkip := rfl
@[simp] theorem failExchange_outcome (f : ExchangeFailure) : (s.failExchange f).outcome = s.outcome := rfl
@[simp] theorem failExchange_pending (f : ExchangeFailure) : (s.failExchange f).pending = s.pending := rfl
@[simp] theorem failExchange_exchange (f : ExchangeFailure) : (s.failExchange f).exchange = .failed f := rfl
@[simp] theorem failExchange_countCache (f : ExchangeFailure) : (s.failExchange f).countCache = s.countCache := rfl
@[simp] theorem failExchange_linkRx (f : ExchangeFailure) : (s.failExchange f).linkRx = s.linkRx.drop 100 := rfl
@[simp] theorem failExchange_linkTx (f : ExchangeFailure) : (s.failExchange f).linkTx = s.linkTx := rfl
@[simp] theorem failExchange_linkEvents (f : ExchangeFailure) : (s.failExchange f).linkEvents = s.linkEvents := rfl

@[simp] theorem completeExchange_connAddr (dev : Byte) (r : Response) : (s.completeExchange dev r).connAddr = s.connAddr := rfl
@[simp] theorem completeExchange_devAddr (dev : Byte) (r : Response) : (s.completeExchange dev r).devAddr = s.devAddr := rfl
@[simp] theorem completeExchange_cellvPadSkip (dev : Byte) (r : Response) : (s.completeExchange dev r).cellvPadSkip = s.cellvPadSkip := rfl
@[simp] theorem completeExchange_outcome (dev : Byte) (r : Response) : (s.completeExchange dev r).outcome = some (.ok (.record r)) := rfl
@[simp] theorem completeExchange_pending (dev : Byte) (r : Response) : (s.completeExchange dev r).pending = s.pending := rfl
@[simp] theorem completeExchange_exchange (dev : Byte) (r : Response) : (s.completeExchange dev r).exchange = .decoded r := rfl
@[simp] theorem completeExchange_linkRx (dev : Byte) (r : Response) : (s.completeExchange dev r).linkRx = s.linkRx := rfl
@[simp] theorem completeExchange_linkTx (dev : Byte) (r : Response) : (s.completeExchange dev r).linkTx = s.linkTx := rfl
@[simp] theorem completeExchange_linkEvents (dev : Byte) (r : Response) : (s.completeExchange dev r).linkEvents = s.linkEvents := rfl

@[simp] theorem setCfg_connAddr_connAddr (v : Byte) : (s.setCfg .connAddr v).connAddr = .set v := rfl
@[simp] theorem setCfg_connAddr_devAddr (v : Byte) : (s.setCfg .connAddr v).devAddr = s.devAddr := rfl
@[simp] theorem setCfg_connAddr_cellvPadSkip (v : Byte) : (s.setCfg .connAddr v).cellvPadSkip = s.cellvPadSkip := rfl
@[simp] theorem setCfg_connAddr_outcome (v : Byte) : (s.setCfg .connAddr v).outcome = none := rfl
@[simp] theorem setCfg_connAddr_pending (v : Byte) : (s.setCfg .connAddr v).pending = s.pending := rfl
@[simp] theorem setCfg_connAddr_exchange (v : Byte) : (s.setCfg .connAddr v).exchange = s.exchange := rfl
@[simp] theorem setCfg_connAddr_countCache (v : Byte) : (s.setCfg .connAddr v).countCache = s.countCache := rfl
@[simp] theorem setCfg_connAddr_linkRx (v : Byte) : (s.setCfg .connAddr v).linkRx = s.linkRx := rfl
@[simp] theorem setCfg_connAddr_linkTx (v : Byte) : (s.setCfg .connAddr v).linkTx = s.linkTx := rfl
@[simp] theorem setCfg_connAddr_linkEvents (v : Byte) : (s.setCfg .connAddr v).linkEvents = s.linkEvents := rfl

@[simp] theorem setCfg_devAddr_connAddr (v : Byte) : (s.setCfg .devAddr v).connAddr = s.connAddr := rfl
@[simp] theorem setCfg_devAddr_devAddr (v : Byte) : (s.setCfg .devAddr v).devAddr = .set v := rfl
@[simp] theorem setCfg_devAddr_cellvPadSkip (v : Byte) : (s.setCfg .devAddr v).cellvPadSkip = s.cellvPadSkip := rfl
@[simp] theorem setCfg_devAddr_outcome (v : Byte) : (s.setCfg .devAddr v).outcome = none := rfl
@[simp] theorem setCfg_devAddr_pending (v : Byte) : (s.setCfg .devAddr v).pending = s.pending := rfl
@[simp] theorem setCfg_devAddr_exchange (v : Byte) : (s.setCfg .devAddr v).exchange = s.exchange := rfl
@[simp] theorem setCfg_devAddr_countCache (v : Byte) : (s.setCfg .devAddr v).countCache = s.countCache := rfl
@[simp] theorem setCfg_devAddr_linkRx (v : Byte) : (s.setCfg .devAddr v).linkRx = s.linkRx := rfl
@[simp] theorem setCfg_devAddr_linkTx (v : Byte) : (s.setCfg .devAddr v).linkTx = s.linkTx := rfl
@[simp] theorem setCfg_devAddr_linkEvents (v : Byte) : (s.setCfg .devAddr v).linkEvents = s.linkEvents := rfl

@[simp] theorem completeExchange_countCache_status (dev : Byte) (i : StatusInformation) :
    (s.completeExchange dev (.statusInformation i)).countCache =
      some ⟨dev, i.cellCount, i.temperatureSensorCount⟩ := rfl

/-- Only a Status record fills the cache (R225 step 6). -/
theorem completeExchange_countCache (dev : Byte) (r : Response) :
    (s.completeExchange dev r).countCache = s.countCache ∨
      ∃ i, r = .statusInformation i ∧
        (s.completeExchange dev r).countCache = some ⟨dev, i.cellCount, i.temperatureSensorCount⟩ := by
  cases r with
  | statusInformation i => exact .inr ⟨i, rfl, rfl⟩
  | _ => exact .inl rfl

@[simp] theorem withOutcome_withOutcome (o o' : OpOutcome) : (s.withOutcome o).withOutcome o' = s.withOutcome o' := rfl

end Sys2Proof.Machine
end

