-- ==== Sys2Proof/Laws/Ops.lean ====
section
/-! SUPPORT. What each shared operation can do: ending an operation, the operand checks, the host's actions, the step. -/

namespace Sys2Proof.Machine

/-! ### Codes -/

@[simp] theorem commandOf_code (cmd : Command) : commandOf cmd.code = some cmd := by cases cmd <;> rfl

theorem code_of_commandOf {c : Byte} {cmd : Command} (h : commandOf c = some cmd) : cmd.code = c := by
  unfold commandOf at h
  repeat' split at h
  all_goals first | (cases h; subst_vars; rfl) | cases h

theorem known_iff_exists {c : Byte} : known c = true ↔ ∃ cmd : Command, cmd.code = c := by
  constructor
  · intro h
    obtain ⟨cmd, hc⟩ := Option.isSome_iff_exists.mp h
    exact ⟨cmd, code_of_commandOf hc⟩
  · rintro ⟨cmd, rfl⟩
    simp [known]

@[simp] theorem known_code (cmd : Command) : known cmd.code = true := known_iff_exists.mpr ⟨cmd, rfl⟩

theorem commandOf_eq_none_iff {c : Byte} : commandOf c = none ↔ known c = false := by
  simp [known]

theorem code_injective {a b : Command} (h : a.code = b.code) : a = b := by
  have := commandOf_code a
  rw [h, commandOf_code] at this
  exact (Option.some.inj this).symm

/-! ### Ending an operation -/

theorem done_eq (v : Result) (s : State) : done v s = .next { s with outcome := some (.ok v) } := rfl

theorem raise_eq (e : ErrorKind) (s : State) : raise e s = .next { s with outcome := some (.err e) } := rfl

@[simp] theorem finish_ok (v : Result) (s : State) : finish (.ok v) s = done v s := rfl

@[simp] theorem finish_error (e : ErrorKind) (s : State) : finish (.error e) s = raise e s := rfl

/-- Ending an operation always answers a next state, which differs in the outcome only. -/
theorem finish_eq_next (r : Except ErrorKind Result) (s : State) :
    ∃ o, finish r s = .next { s with outcome := some o } ∧ ((∃ v, r = .ok v ∧ o = .ok v) ∨ ∃ e, r = .error e ∧ o = .err e) := by
  cases r with
  | ok v => exact ⟨_, rfl, .inl ⟨v, rfl, rfl⟩⟩
  | error e => exact ⟨_, rfl, .inr ⟨e, rfl, rfl⟩⟩

/-- Two states that differ in the outcome presented are equal only if the outcomes are. -/
theorem withOutcome_inj {s : State} {o o' : OpOutcome}
    (h : (Host.Outcome.next { s with outcome := some o } : Answer) = .next { s with outcome := some o' }) : o = o' := by
  injection h with h
  exact Option.some.inj (congrArg State.outcome h)

/-- An operation that ends through `finish` completes with `v` exactly when its computation gave `v`. -/
theorem finish_completes_iff {r : Except ErrorKind Result} {s : State} {v : Result} :
    finish r s = .next { s with outcome := some (.ok v) } ↔ r = .ok v := by
  constructor
  · intro h
    cases r with
    | ok w => rw [finish_ok, done_eq] at h; cases withOutcome_inj h; rfl
    | error e => rw [finish_error, raise_eq] at h; cases withOutcome_inj h
  · rintro rfl; rfl

/-- An operation that ends through `finish` fails with `e` exactly when its computation gave `e`. -/
theorem finish_fails_iff {r : Except ErrorKind Result} {s : State} {e : ErrorKind} :
    finish r s = .next { s with outcome := some (.err e) } ↔ r = .error e := by
  constructor
  · intro h
    cases r with
    | ok w => rw [finish_ok, done_eq] at h; cases withOutcome_inj h
    | error e => rw [finish_error, raise_eq] at h; cases withOutcome_inj h; rfl
  · rintro rfl; rfl

/-! ### Operand checks -/

@[simp] theorem withCommand_code (cmd : Command) (go : Command → Answer) : withCommand cmd.code go = go cmd := by
  simp [withCommand]

theorem withCommand_unknown {c : Byte} (h : known c = false) (go : Command → Answer) :
    withCommand c go = .refused (.unknownCode c) := by
  simp [withCommand, commandOf_eq_none_iff.mpr h]

/-- A code operand either refuses the operation or is a command's code. -/
theorem withCommand_cases (c : Byte) (go : Command → Answer) :
    (known c = false ∧ withCommand c go = .refused (.unknownCode c)) ∨
      ∃ cmd : Command, cmd.code = c ∧ withCommand c go = go cmd := by
  cases h : commandOf c with
  | none => exact .inl ⟨commandOf_eq_none_iff.mp h, by simp [withCommand, h]⟩
  | some cmd => exact .inr ⟨cmd, code_of_commandOf h, by simp [withCommand, h]⟩

theorem withExponent_le {k : Byte} (h : k.toNat ≤ 3) (go : Nat → Answer) : withExponent k go = go k.toNat := if_pos h

theorem withExponent_gt {k : Byte} (h : ¬ k.toNat ≤ 3) (go : Nat → Answer) :
    withExponent k go = .refused (.exponentOutsideType k) := if_neg h

theorem withConnAddr_set {s : State} {v : Byte} (h : s.connAddr = .set v) (go : Byte → Answer) :
    withConnAddr s go = go v := by simp [withConnAddr, h]

theorem withConnAddr_unset {s : State} (h : s.connAddr = .unset) (go : Byte → Answer) :
    withConnAddr s go = .refused .connAddrUnset := by simp [withConnAddr, h]

theorem withDevAddr_set {s : State} {v : Byte} (h : s.devAddr = .set v) (go : Byte → Answer) :
    withDevAddr s go = go v := by simp [withDevAddr, h]

theorem withDevAddr_unset {s : State} (h : s.devAddr = .unset) (go : Byte → Answer) :
    withDevAddr s go = .refused .devAddrUnset := by simp [withDevAddr, h]

theorem withConnAddr_cases (s : State) (go : Byte → Answer) :
    (s.connAddr = .unset ∧ withConnAddr s go = .refused .connAddrUnset) ∨
      ∃ v, s.connAddr = .set v ∧ withConnAddr s go = go v := by
  cases h : s.connAddr with
  | unset => exact .inl ⟨rfl, withConnAddr_unset h go⟩
  | set v => exact .inr ⟨v, rfl, withConnAddr_set h go⟩

theorem withDevAddr_cases (s : State) (go : Byte → Answer) :
    (s.devAddr = .unset ∧ withDevAddr s go = .refused .devAddrUnset) ∨
      ∃ v, s.devAddr = .set v ∧ withDevAddr s go = go v := by
  cases h : s.devAddr with
  | unset => exact .inl ⟨rfl, withDevAddr_unset h go⟩
  | set v => exact .inr ⟨v, rfl, withDevAddr_set h go⟩

/-! ### Big-endian fields -/

theorem toNat_append_byte {w : Nat} (x : BitVec w) (l : Byte) : (x ++ l).toNat = x.toNat * 256 + l.toNat := by
  rw [BitVec.toNat_append, Nat.shiftLeft_eq, Nat.mul_comm, ← Nat.two_pow_add_eq_or_of_lt l.isLt]

theorem u16_eq_append (h l : Byte) : u16 h l = (h ++ l).toNat := by
  rw [toNat_append_byte]; rfl

theorem u16_lt (h l : Byte) : u16 h l < 65536 := by
  have := h.isLt; have := l.isLt; unfold u16; omega

theorem u32_lt (b0 b1 b2 b3 : Byte) : u32 b0 b1 b2 b3 < 4294967296 := by
  have := b0.isLt; have := b1.isLt; have := b2.isLt; have := b3.isLt; unfold u32; omega

theorem u32_eq_append (b0 b1 b2 b3 : Byte) : u32 b0 b1 b2 b3 = (b0 ++ b1 ++ b2 ++ b3).toNat := by
  rw [toNat_append_byte, toNat_append_byte, toNat_append_byte]
  unfold u32
  omega

/-! ### The step -/

/-- What a step can do, by the host's next action. -/
theorem step_cases (s : State) :
    (s.pending = [] ∧ step s = .next s.idleStep) ∨
    (∃ r v rest, s.pending = .cfg r v :: rest ∧ step s = .next (s.popAction.setCfg r v)) ∨
    (∃ f rest, s.pending = .reset f :: rest ∧ step s = .next (s.popAction.assertReset f)) ∨
    (∃ p rest e, s.pending = .present p :: rest ∧ decode p = .error e ∧ step s = .refused (.undecoded e)) ∨
    ∃ p rest i, s.pending = .present p :: rest ∧ decode p = .ok i ∧ step s = exec i s.popAction := by
  cases h : s.pending with
  | nil => exact .inl ⟨rfl, by simp [step, h]⟩
  | cons a rest =>
    cases a with
    | cfg r v => exact .inr (.inl ⟨r, v, rest, rfl, by simp [step, h]⟩)
    | reset f => exact .inr (.inr (.inl ⟨f, rest, rfl, by simp [step, h]⟩))
    | present p =>
      cases hd : decode p with
      | error e => exact .inr (.inr (.inr (.inl ⟨p, rest, e, rfl, hd, by simp [step, h, hd]⟩)))
      | ok i => exact .inr (.inr (.inr (.inr ⟨p, rest, i, rfl, hd, by simp [step, h, hd]⟩)))

end Sys2Proof.Machine
end

