-- ==== Sys2Proof/Laws/Encode.lean ====
section
/-! SUPPORT. The operand readers of the decoder beside the encoder's layouts. -/

namespace Sys2Proof

@[simp] theorem payloadOf_bytes (p : Payload) : payloadOf p.bytes = some p := rfl

theorem eq_bytes_of_payloadOf {a : Bytes} {p : Payload} (h : payloadOf a = some p) : a = p.bytes := by
  unfold payloadOf at h
  split at h
  · cases h; rfl
  · cases h

@[simp] theorem payloadsOf_flatMap (P : List Payload) : payloadsOf (P.flatMap Payload.bytes) = some P := by
  induction P with
  | nil => rfl
  | cons p P ih => simp [Payload.bytes, payloadsOf] at ih ⊢; rw [ih]

theorem eq_flatMap_of_payloadsOf (a : Bytes) : ∀ {P : List Payload}, payloadsOf a = some P → a = P.flatMap Payload.bytes := by
  induction a using payloadsOf.induct with
  | case1 => intro P h; cases h; rfl
  | case2 b0 b1 b2 b3 b4 b5 b6 b7 rest ih =>
    intro P h
    rw [payloadsOf, Option.map_eq_some_iff] at h
    obtain ⟨Q, hQ, rfl⟩ := h
    simp [ih hQ, Payload.bytes]
  | case3 a h0 h8 => intro P h; simp [payloadsOf] at h

/-- One row of a table of selectors: either the selector is this row's, or a later row is meant. -/
theorem row_eq_some {α : Type} {p : Prop} [Decidable p] {x row : α} {y : Option α}
    (h : (if p then some x else y) = some row) : (p ∧ x = row) ∨ y = some row := by
  split at h
  · exact .inl ⟨‹_›, Option.some.inj h⟩
  · exact .inr h

/-! ### Numbers read from the end -/

theorem toNat_ofNat_of_lt {k : Nat} (h : k < 256) : (BitVec.ofNat 8 k).toNat = k := by
  simp [BitVec.toNat_ofNat]; omega

/-- The decoder reads the groups of a number back, and leaves what stands before them. -/
theorem countFromEnd_countGroups (fuel : Nat) : ∀ (n : Nat) (before : Bytes), n < 128 ^ (fuel + 1) →
    countFromEnd (countGroups fuel n ++ before) = some (n, before) := by
  induction fuel with
  | zero =>
    intro n before h
    have h8 := toNat_ofNat_of_lt (k := n) (by omega)
    simp only [countGroups, List.singleton_append, countFromEnd, h8]
    rw [if_pos (by omega)]
  | succ fuel ih =>
    intro n before h
    by_cases hn : n < 128
    · have h8 := toNat_ofNat_of_lt (k := n) (by omega)
      simp only [countGroups, hn, if_true, List.singleton_append, countFromEnd, h8]
    · have h8 := toNat_ofNat_of_lt (k := n % 128 + 128) (by omega)
      have hr := ih (n / 128) before (by rw [Nat.div_lt_iff_lt_mul (by omega)]; rw [pow_succ] at h; omega)
      have hq : n / 128 ≠ 0 := by omega
      simp only [countGroups, hn, if_false, List.cons_append, countFromEnd, h8, hr]
      rw [if_neg (by omega)]
      obtain ⟨q, hq'⟩ := Nat.exists_eq_succ_of_ne_zero hq
      rw [hq']
      simp only [Option.some.injEq, Prod.mk.injEq, and_true]
      omega

/-- A number that the decoder reads is spelled by its groups: each number has one encoding. -/
theorem eq_countGroups_of_countFromEnd (a : Bytes) : ∀ {n : Nat} {before : Bytes}, countFromEnd a = some (n, before) →
    ∀ fuel, n < 128 ^ (fuel + 1) → a = countGroups fuel n ++ before := by
  induction a with
  | nil => intro n before h; cases h
  | cons b rest ih =>
    intro n before h fuel hf
    by_cases hb : b.toNat < 128
    · simp only [countFromEnd, hb, if_true, Option.some.injEq, Prod.mk.injEq] at h
      obtain ⟨rfl, rfl⟩ := h
      cases fuel with
      | zero => simp [countGroups]
      | succ fuel => simp [countGroups, hb]
    · simp only [countFromEnd, hb, if_false] at h
      split at h
      · cases h
      · rename_i v before' hne hr
        simp only [Option.some.injEq, Prod.mk.injEq] at h
        obtain ⟨rfl, rfl⟩ := h
        have hv : v ≠ 0 := by rintro rfl; exact hne rfl
        have hlt := b.isLt
        cases fuel with
        | zero => omega
        | succ fuel =>
          have hmod : (128 * v + (b.toNat - 128)) % 128 + 128 = b.toNat := by omega
          have hdiv : (128 * v + (b.toNat - 128)) / 128 = v := by omega
          have := ih hr fuel (by rw [pow_succ] at hf; omega)
          rw [countGroups, if_neg (by omega), hmod, hdiv, List.cons_append, ← this]
          simp
      · cases h

theorem lt_pow_fuel (N : Nat) : N < 128 ^ (N + 1 + 1) :=
  (Nat.lt_pow_self (by omega : 1 < 128)).trans (Nat.pow_lt_pow_right (by omega) (by omega))

/-! ### The operand layouts -/

theorem operand0_eq_some {i j : Instr} {a : Bytes} (h : operand0 i a = some j) : a = [] ∧ j = i := by
  unfold operand0 at h; split at h <;> simp_all

theorem operand1_eq_some {f : Byte → Instr} {a : Bytes} {i : Instr} (h : operand1 f a = some i) :
    ∃ x, a = [x] ∧ i = f x := by
  unfold operand1 at h; split at h <;> simp_all

theorem operand2_eq_some {f : Byte → Byte → Instr} {a : Bytes} {i : Instr} (h : operand2 f a = some i) :
    ∃ x y, a = [x, y] ∧ i = f x y := by
  unfold operand2 at h; split at h <;> simp_all

theorem operand3_eq_some {f : Byte → Byte → Byte → Instr} {a : Bytes} {i : Instr} (h : operand3 f a = some i) :
    ∃ x y z, a = [x, y, z] ∧ i = f x y z := by
  unfold operand3 at h; split at h <;> simp_all

theorem operand4_eq_some {f : Byte → Byte → Byte → Byte → Instr} {a : Bytes} {i : Instr}
    (h : operand4 f a = some i) : ∃ x y z w, a = [x, y, z, w] ∧ i = f x y z w := by
  unfold operand4 at h; split at h <;> simp_all

theorem operand5_eq_some {f : Byte → Byte → Byte → Byte → Byte → Instr} {a : Bytes} {i : Instr}
    (h : operand5 f a = some i) : ∃ x y z w v, a = [x, y, z, w, v] ∧ i = f x y z w v := by
  unfold operand5 at h; split at h <;> simp_all

theorem operand2ThenBytes_eq_some {f : Byte → Byte → Bytes → Instr} {a : Bytes} {i : Instr}
    (h : operand2ThenBytes f a = some i) : ∃ x y B, a = x :: y :: B ∧ i = f x y B := by
  unfold operand2ThenBytes at h; split at h <;> simp_all

theorem operandBytesThenByte_append (f : Bytes → Byte → Instr) (S : Bytes) (n : Byte) :
    operandBytesThenByte f (S ++ [n]) = some (f S n) := by
  simp [operandBytesThenByte]

theorem operandBytesThenByte_eq_some {f : Bytes → Byte → Instr} {a : Bytes} {i : Instr}
    (h : operandBytesThenByte f a = some i) : ∃ S n, a = S ++ [n] ∧ i = f S n := by
  simp only [operandBytesThenByte, Option.map_eq_some_iff] at h
  obtain ⟨n, hn, rfl⟩ := h
  exact ⟨a.dropLast, n, (List.dropLast_append_getLast? n hn).symm, rfl⟩

theorem operandPayload_eq_some {f : Payload → Instr} {a : Bytes} {i : Instr} (h : operandPayload f a = some i) :
    ∃ p, a = p.bytes ∧ i = f p := by
  simp only [operandPayload, Option.map_eq_some_iff] at h
  obtain ⟨p, hp, rfl⟩ := h
  exact ⟨p, eq_bytes_of_payloadOf hp, rfl⟩

theorem operandPayloadThenByte_eq_some {f : Payload → Byte → Instr} {a : Bytes} {i : Instr}
    (h : operandPayloadThenByte f a = some i) : ∃ p n, a = p.bytes ++ [n] ∧ i = f p n := by
  simp only [operandPayloadThenByte, Option.bind_eq_some_iff, Option.map_eq_some_iff] at h
  obtain ⟨n, hn, p, hp, rfl⟩ := h
  exact ⟨p, n, by rw [← eq_bytes_of_payloadOf hp, List.dropLast_append_getLast? n hn], rfl⟩

theorem operandPayloadsThenCount_append (f : List Payload → Nat → Instr) (P : List Payload) (N : Nat) :
    operandPayloadsThenCount f (P.flatMap Payload.bytes ++ (countGroups (N + 1) N).reverse) = some (f P N) := by
  simp only [operandPayloadsThenCount, List.reverse_append, List.reverse_reverse]
  rw [countFromEnd_countGroups _ _ _ (lt_pow_fuel N)]
  simp

theorem operandPayloadsThenCount_eq_some {f : List Payload → Nat → Instr} {a : Bytes} {i : Instr}
    (h : operandPayloadsThenCount f a = some i) :
    ∃ P N, a = P.flatMap Payload.bytes ++ (countGroups (N + 1) N).reverse ∧ i = f P N := by
  unfold operandPayloadsThenCount at h
  split at h
  · rename_i N before hc
    rw [Option.map_eq_some_iff] at h
    obtain ⟨P, hP, rfl⟩ := h
    refine ⟨P, N, ?_, rfl⟩
    rw [← eq_flatMap_of_payloadsOf _ hP, ← List.reverse_append, ← eq_countGroups_of_countFromEnd _ hc _ (lt_pow_fuel N),
      List.reverse_reverse]
  · cases h

theorem append_extract (off : BitVec 16) : (off.extractLsb' 8 8 ++ off.extractLsb' 0 8 : BitVec 16) = off := by
  apply BitVec.eq_of_toNat_eq
  rw [Machine.toNat_append_byte]
  simp only [BitVec.extractLsb'_toNat, Nat.shiftRight_eq_div_pow]
  omega

theorem extract_append (hi lo : Byte) :
    (hi ++ lo : BitVec 16).extractLsb' 8 8 = hi ∧ (hi ++ lo : BitVec 16).extractLsb' 0 8 = lo := by
  have h1 := hi.isLt
  have h2 := lo.isLt
  constructor <;> apply BitVec.eq_of_toNat_eq <;>
    rw [BitVec.extractLsb'_toNat, Machine.toNat_append_byte, Nat.shiftRight_eq_div_pow] <;> omega

end Sys2Proof
end

