-- ==== Sys2Proof/Laws/FrameCodec.lean ====
section
/-! SUPPORT. The checksum, valid frames, and what decoding a frame can do. -/

namespace Sys2Proof.Machine

/-! ### The checksum -/

@[simp] theorem chk_nil : chk [] = 0#8 := rfl

theorem chk_cons (b : Byte) (B : Bytes) : chk (b :: B) = b + chk B := by
  apply BitVec.eq_of_toNat_eq
  simp [chk, BitVec.toNat_add, BitVec.toNat_ofNat]

theorem chk_append (A B : Bytes) : chk (A ++ B) = chk A + chk B := by
  induction A with
  | nil => simp
  | cons a A ih => rw [List.cons_append, chk_cons, chk_cons, ih, BitVec.add_assoc]

theorem foldl_add_eq (B : Bytes) (x : Byte) : B.foldl (· + ·) x = x + chk B := by
  induction B generalizing x with
  | nil => simp
  | cons b B ih => rw [List.foldl_cons, ih, chk_cons, BitVec.add_assoc]

/-- `CHK` is the sum in 8-bit arithmetic. -/
theorem chk_eq_byteSum (B : Bytes) : chk B = byteSum B := by
  rw [byteSum, foldl_add_eq, BitVec.zero_add]

/-! ### Frames -/

@[simp] theorem payload_bytes_length (p : Payload) : p.bytes.length = 8 := rfl

@[simp] theorem validFrame_length (a c : Byte) (p : Payload) : (validFrame a c p).length = 13 := rfl

theorem sealFrame_bytes (a c : Byte) (p : Payload) : (sealFrame a c p).bytes = validFrame a c p := by
  simp [sealFrame, Frame.bytes, validFrame, chk_eq_byteSum, Payload.bytes]

theorem zeroPayload_eq : zeroPayload = ⟨0#8, 0#8, 0#8, 0#8, 0#8, 0#8, 0#8, 0#8⟩ := rfl

theorem encodeRequest_bytes (conn code : Byte) : (encodeRequest conn code).bytes = requestFrame conn code :=
  sealFrame_bytes conn code _

/-- A sequence of 13 bytes, by its bytes. -/
theorem exists_of_length_thirteen {F : Bytes} (h : F.length = 13) :
    ∃ a c m k x0 x1 x2 x3 x4 x5 x6 x7 x, F = [m, a, c, k, x0, x1, x2, x3, x4, x5, x6, x7, x] := by
  match F, h with
  | [m, a, c, k, x0, x1, x2, x3, x4, x5, x6, x7, x], _ => exact ⟨a, c, m, k, x0, x1, x2, x3, x4, x5, x6, x7, x, rfl⟩

/-- DEC_FRAME on 13 bytes, by their values. -/
theorem decodeFrame_thirteen (m a c k x0 x1 x2 x3 x4 x5 x6 x7 x : Byte) :
    decodeFrame [m, a, c, k, x0, x1, x2, x3, x4, x5, x6, x7, x] =
      if x ≠ chk [m, a, c, k, x0, x1, x2, x3, x4, x5, x6, x7] then .error .checksumMismatch
      else if m ≠ 0xA5#8 then .error .headerMismatch
      else if k ≠ 0x08#8 then .error .headerMismatch
      else if known c = false then .error .headerMismatch
      else .ok ⟨c, a, ⟨x0, x1, x2, x3, x4, x5, x6, x7⟩⟩ := rfl

theorem decodeFrame_of_length_ne {F : Bytes} (h : F.length ≠ 13) : decodeFrame F = .error .lengthMismatch := if_pos h

theorem decodeFrame_validFrame {c : Byte} (h : known c = true) (a : Byte) (p : Payload) :
    decodeFrame (validFrame a c p) = .ok ⟨c, a, p⟩ := by
  rw [validFrame, decodeFrame_thirteen]
  simp [chk_eq_byteSum, h]

/-- DEC_FRAME's computation succeeds on valid frames only. -/
theorem eq_validFrame_of_decodeFrame {F : Bytes} {d : DecodedFrame} (h : decodeFrame F = .ok d) :
    F = validFrame d.addr d.code d.payload ∧ known d.code = true := by
  by_cases hl : F.length = 13
  · obtain ⟨a, c, m, k, x0, x1, x2, x3, x4, x5, x6, x7, x, rfl⟩ := exists_of_length_thirteen hl
    rw [decodeFrame_thirteen] at h
    split at h; · cases h
    split at h; · cases h
    split at h; · cases h
    split at h; · cases h
    rename_i hx hm hk hc
    cases h
    simp only [ne_eq, Decidable.not_not] at hx hm hk
    subst hm hk
    exact ⟨by rw [hx, chk_eq_byteSum, validFrame], by simpa using hc⟩
  · rw [decodeFrame_of_length_ne hl] at h; cases h

/-- The kinds DEC_FRAME's computation gives; `LengthMismatch` for a wrong length only. -/
theorem decodeFrame_error {F : Bytes} {e : ErrorKind} (h : decodeFrame F = .error e) :
    (e = .lengthMismatch ∧ F.length ≠ 13) ∨ (F.length = 13 ∧ (e = .checksumMismatch ∨ e = .headerMismatch)) := by
  by_cases hl : F.length = 13
  · refine .inr ⟨hl, ?_⟩
    obtain ⟨a, c, m, k, x0, x1, x2, x3, x4, x5, x6, x7, x, rfl⟩ := exists_of_length_thirteen hl
    rw [decodeFrame_thirteen] at h
    repeat' split at h
    all_goals first | (cases h; exact .inl rfl) | (cases h; exact .inr rfl) | cases h
  · rw [decodeFrame_of_length_ne hl] at h; cases h; exact .inl ⟨rfl, hl⟩

theorem decodeAuth_ok_iff {dev : Byte} {F : Bytes} {d : DecodedFrame} :
    decodeAuth dev F = .ok d ↔ decodeFrame F = .ok d ∧ d.addr = dev := by
  unfold decodeAuth
  cases h : decodeFrame F with
  | error e => simp
  | ok d' =>
    by_cases ha : d'.addr = dev
    · simp only [ha, ne_eq, not_true_eq_false, if_false, Except.ok.injEq]
      exact ⟨fun h => ⟨h, h ▸ ha⟩, And.left⟩
    · simp only [ne_eq, ha, not_false_eq_true, if_true, reduceCtorEq, Except.ok.injEq, false_iff, not_and]
      rintro rfl; exact ha

theorem decodeAuth_validFrame {c : Byte} (h : known c = true) (dev : Byte) (p : Payload) :
    decodeAuth dev (validFrame dev c p) = .ok ⟨c, dev, p⟩ :=
  decodeAuth_ok_iff.mpr ⟨decodeFrame_validFrame h dev p, rfl⟩

/-- DEC_AUTH's computation fails as DEC_FRAME's does, or with a wrong address. -/
theorem decodeAuth_error {dev : Byte} {F : Bytes} {e : ErrorKind} (h : decodeAuth dev F = .error e) :
    decodeFrame F = .error e ∨ (∃ d, decodeFrame F = .ok d ∧ d.addr ≠ dev ∧ e = .headerMismatch) := by
  unfold decodeAuth at h
  split at h
  · cases h; exact .inl ‹_›
  · split at h
    · cases h; exact .inr ⟨_, ‹_›, ‹_›, rfl⟩
    · cases h

end Sys2Proof.Machine
end

