-- ==== Sys2Proof/Laws/MultiFrame.lean ====
section
/-! SUPPORT. Sorting by sequence id, chunks, and what the receive pipeline can do. -/

namespace Sys2Proof.Machine

/-! ### Sorting -/

theorem insertById_perm (p : Payload) (L : List Payload) : (insertById p L).Perm (p :: L) := by
  induction L with
  | nil => exact .refl _
  | cons q L ih =>
    unfold insertById
    split
    · exact .refl _
    · exact (ih.cons q).trans (.swap p q L)

theorem sortById_perm (L : List Payload) : (sortById L).Perm L := by
  induction L with
  | nil => exact .refl _
  | cons p L ih => exact (insertById_perm p _).trans (ih.cons p)

theorem insertById_sorted {p : Payload} {L : List Payload} (h : L.Pairwise fun a b => seqId a ≤ seqId b) :
    (insertById p L).Pairwise fun a b => seqId a ≤ seqId b := by
  induction L with
  | nil => simp [insertById]
  | cons q L ih =>
    unfold insertById
    obtain ⟨hq, hL⟩ := List.pairwise_cons.mp h
    by_cases hle : seqId p ≤ seqId q
    · rw [if_pos hle]
      refine List.pairwise_cons.mpr ⟨fun b hb => ?_, h⟩
      rcases List.mem_cons.mp hb with rfl | hb
      · exact hle
      · exact hle.trans (hq b hb)
    · rw [if_neg hle]
      refine List.pairwise_cons.mpr ⟨fun b hb => ?_, ih hL⟩
      rcases List.mem_cons.mp ((insertById_perm p L).mem_iff.mp hb) with rfl | hb
      · omega
      · exact hq b hb

theorem sortById_sorted (L : List Payload) : (sortById L).Pairwise fun a b => seqId a ≤ seqId b := by
  induction L with
  | nil => simp [sortById]
  | cons p L ih => exact insertById_sorted ih

/-- The sorted ids are `1..N` exactly when the ids, in any order, are. -/
theorem sorted_ids_iff (L : List Payload) (N : Nat) :
    (sortById L).map seqId = List.range' 1 N ↔ (L.map seqId).Perm (List.range' 1 N) := by
  constructor
  · intro h
    rw [← h]
    exact ((sortById_perm L).map seqId).symm
  · intro h
    refine List.Perm.eq_of_pairwise (le := fun a b => a ≤ b) (fun a b _ _ => Nat.le_antisymm) ?_ ?_
      (((sortById_perm L).map seqId).trans h)
    · exact List.pairwise_map.mpr (sortById_sorted L)
    · exact (List.pairwise_lt_range' (s := 1) (n := N)).imp Nat.le_of_lt

theorem reassemble_eq (P : List Payload) (N : Nat) :
    reassemble P N = if (P.map seqId).Perm (List.range' 1 N) then .ok ((sortById P).flatMap dataRegion)
      else .error .incompleteFrames := by
  unfold reassemble
  by_cases h : (P.map seqId).Perm (List.range' 1 N)
  · rw [if_neg (by simpa [sorted_ids_iff] using h), if_pos h]
  · rw [if_pos (by simpa [sorted_ids_iff] using h), if_neg h]

@[simp] theorem dataRegion_length (p : Payload) : (dataRegion p).length = 7 := rfl

theorem flatMap_dataRegion_length (L : List Payload) : (L.flatMap dataRegion).length = 7 * L.length := by
  induction L with
  | nil => rfl
  | cons p L ih => simp [ih]; omega

/-- A reassembled stream is `7 * N` bytes long. -/
theorem reassemble_length {P : List Payload} {N : Nat} {S : Bytes} (h : reassemble P N = .ok S) :
    S.length = 7 * N ∧ P.length = N := by
  rw [reassemble_eq] at h
  split at h
  next hp =>
    cases h
    have hl : P.length = N := by simpa using hp.length_eq
    exact ⟨by rw [flatMap_dataRegion_length, (sortById_perm P).length_eq, hl], hl⟩
  next => cases h

theorem reassemble_error {P : List Payload} {N : Nat} {e : ErrorKind} (h : reassemble P N = .error e) :
    e = .incompleteFrames := by
  rw [reassemble_eq] at h
  split at h <;> cases h
  rfl

/-! ### Profiles that can fail -/

theorem profileMosfet_error {p : Payload} {e : ErrorKind} (h : profileMosfet p = .error e) :
    e = .invalidEnumValue := by
  unfold profileMosfet chargeState at h
  by_cases h0 : p.b0 = 0#8
  · simp [h0] at h
  by_cases h1 : p.b0 = 1#8
  · simp [h1] at h
  by_cases h2 : p.b0 = 2#8
  · simp [h2] at h
  · simp [h0, h1, h2] at h
    exact h.symm

theorem profileCellv_error {b : Bool} {S : Bytes} {n : Nat} {e : ErrorKind} (h : profileCellv b S n = .error e) :
    e = .incompleteFrames := by
  unfold profileCellv at h
  generalize (if b then dropPads S else S) = T at h
  dsimp only at h
  split at h <;> cases h
  rfl

theorem profileCellt_error {S : Bytes} {n : Nat} {e : ErrorKind} (h : profileCellt S n = .error e) :
    e = .incompleteFrames := by
  unfold profileCellt at h
  split at h <;> cases h
  rfl

theorem profileBal_error {p : Payload} {n : Nat} {e : ErrorKind} (h : profileBal p n = .error e) :
    e = .incompleteFrames := by
  unfold profileBal at h
  split at h <;> cases h
  rfl

/-! ### Chunks -/

@[simp] theorem decodeChunks_nil (dev : Byte) : decodeChunks dev [] = .ok [] := rfl

/-- Chunks that are valid frames of a known code decode to their payloads. -/
theorem decodeChunks_validFrames {c : Byte} (h : known c = true) (dev : Byte) (P : List Payload) :
    decodeChunks dev (P.map (validFrame dev c)) = .ok (P.map fun p => ⟨c, dev, p⟩) := by
  induction P with
  | nil => rfl
  | cons p P ih => simp [decodeChunks, decodeAuth_validFrame h, ih, Except.map]

/-- All chunks decode, each by itself, and in order. -/
theorem decodeChunks_ok {dev : Byte} {L : List Bytes} {ds : List DecodedFrame} (h : decodeChunks dev L = .ok ds) :
    List.Forall₂ (fun C d => decodeAuth dev C = .ok d) L ds := by
  induction L generalizing ds with
  | nil => cases h; exact .nil
  | cons C L ih =>
    unfold decodeChunks at h
    split at h
    · cases h
    · cases hr : decodeChunks dev L with
      | error e => rw [hr] at h; cases h
      | ok ds' => rw [hr] at h; cases h; exact .cons ‹_› (ih hr)

theorem decodeChunks_of_forall {dev : Byte} {L : List Bytes} (h : ∀ C ∈ L, ∃ d, decodeAuth dev C = .ok d) :
    ∃ ds, decodeChunks dev L = .ok ds := by
  induction L with
  | nil => exact ⟨[], rfl⟩
  | cons C L ih =>
    obtain ⟨d, hd⟩ := h C (List.mem_cons_self ..)
    obtain ⟨ds, hds⟩ := ih fun C hC => h C (List.mem_cons_of_mem _ hC)
    exact ⟨d :: ds, by simp [decodeChunks, hd, hds, Except.map]⟩

/-- The error is the first failing chunk's. -/
theorem decodeChunks_append_error {dev : Byte} {A : List Bytes} {C : Bytes} {e : ErrorKind}
    (hA : ∀ C ∈ A, ∃ d, decodeAuth dev C = .ok d) (hC : decodeAuth dev C = .error e) (B : List Bytes) :
    decodeChunks dev (A ++ C :: B) = .error e := by
  induction A with
  | nil => simp [decodeChunks, hC]
  | cons a A ih =>
    obtain ⟨d, hd⟩ := hA a (List.mem_cons_self ..)
    simp [decodeChunks, hd, ih fun C hC => hA C (List.mem_cons_of_mem _ hC), Except.map]

theorem decodeChunks_error {dev : Byte} {L : List Bytes} {e : ErrorKind} (h : decodeChunks dev L = .error e) :
    ∃ C ∈ L, decodeAuth dev C = .error e := by
  induction L with
  | nil => cases h
  | cons C L ih =>
    unfold decodeChunks at h
    split at h
    · cases h; exact ⟨C, List.mem_cons_self .., ‹_›⟩
    · cases hr : decodeChunks dev L with
      | ok ds' => rw [hr] at h; cases h
      | error e' =>
        rw [hr] at h; cases h
        obtain ⟨D, hD, hDe⟩ := ih hr
        exact ⟨D, List.mem_cons_of_mem _ hD, hDe⟩

theorem chunk_length {B : Bytes} {k N : Nat} (hk : k < N) (h : 13 * N ≤ B.length) : (chunk B k).length = 13 := by
  simp only [chunk, slice, Config.frameLen, List.length_take, List.length_drop]
  omega

/-- Bytes behind the frames do not reach a chunk. -/
theorem chunk_append {A : Bytes} {k N : Nat} (hk : k < N) (hA : 13 * N ≤ A.length) (B : Bytes) :
    chunk (A ++ B) k = chunk A k := by
  simp only [chunk, slice, Config.frameLen]
  rw [List.drop_append_of_le_length (by omega), List.take_append_of_le_length (by rw [List.length_drop]; omega)]

/-- The chunks of frames one after the other are the frames. -/
theorem chunks_flatMap (f : Payload → Bytes) (hf : ∀ p, (f p).length = 13) (P : List Payload) (extra : Bytes) :
    (List.range P.length).map (chunk (P.flatMap f ++ extra)) = P.map f := by
  induction P with
  | nil => rfl
  | cons p P ih =>
    rw [List.length_cons, List.range_succ_eq_map, List.map_cons, List.map_map, List.map_cons, ← ih]
    congr 1
    · simp [chunk, slice, List.append_assoc, ← hf p]
    · apply List.map_congr_left
      intro k _
      simp only [chunk, slice, Config.frameLen, Function.comp, List.flatMap_cons, List.append_assoc]
      rw [List.drop_append, List.drop_eq_nil_of_le (by rw [hf]; omega), List.nil_append]
      congr 2
      rw [hf]
      omega

/-! ### The pipeline -/

/-- The profile's errors: `IncompleteFrames`, or `InvalidEnumValue` from MosfetStatus. -/
theorem decodePayloads_error {b : Bool} {cmd : Command} {n : Nat} {P : List Payload} {e : ErrorKind}
    (h : decodePayloads b cmd n P = .error e) :
    e = .incompleteFrames ∨ (e = .invalidEnumValue ∧ cmd = .mosfetStatus) := by
  cases cmd <;> simp only [decodePayloads] at h
  case stateOfCharge => cases h
  case cellVoltageLimits => cases h
  case cellTemperatureLimits => cases h
  case mosfetStatus =>
    cases hp : profileMosfet (P.headD zeroPayload) with
    | ok r => rw [hp] at h; cases h
    | error e' => rw [hp] at h; cases h; exact .inr ⟨profileMosfet_error hp, rfl⟩
  case status => cases h
  case cellVoltages =>
    split at h
    · cases h; exact .inl (reassemble_error ‹_›)
    · rename_i S _
      cases hp : profileCellv b S n with
      | ok r => rw [hp] at h; cases h
      | error e' => rw [hp] at h; cases h; exact .inl (profileCellv_error hp)
  case temperatures =>
    split at h
    · cases h; exact .inl (reassemble_error ‹_›)
    · rename_i S _
      cases hp : profileCellt S n with
      | ok r => rw [hp] at h; cases h
      | error e' => rw [hp] at h; cases h; exact .inl (profileCellt_error hp)
  case balanceStates =>
    cases hp : profileBal (P.headD zeroPayload) n with
    | ok r => rw [hp] at h; cases h
    | error e' => rw [hp] at h; cases h; exact .inl (profileBal_error hp)
  case failures => cases h

/-- What the receive pipeline can do, in the order of its checks. -/
theorem receive_cases (b : Bool) (dev : Byte) (cmd : Command) (n : Nat) (B : Bytes) :
    (B.length < 13 * frameCount cmd n ∧ receive b dev cmd n B = .error .invalidResponseLength) ∨
    (13 * frameCount cmd n ≤ B.length ∧
      ((∃ e, decodeChunks dev ((List.range (frameCount cmd n)).map (chunk B)) = .error e ∧
          receive b dev cmd n B = .error e) ∨
       ∃ ds, decodeChunks dev ((List.range (frameCount cmd n)).map (chunk B)) = .ok ds ∧
        (((∃ d ∈ ds, d.code ≠ cmd.code) ∧ receive b dev cmd n B = .error .incompleteFrames) ∨
         ((∀ d ∈ ds, d.code = cmd.code) ∧
          receive b dev cmd n B = decodePayloads b cmd n (ds.map DecodedFrame.payload))))) := by
  unfold receive
  dsimp only
  by_cases hl : B.length < 13 * frameCount cmd n
  · exact .inl ⟨hl, if_pos hl⟩
  · refine .inr ⟨Nat.le_of_not_lt hl, ?_⟩
    rw [if_neg hl]
    cases hd : decodeChunks dev ((List.range (frameCount cmd n)).map (chunk B)) with
    | error e => exact .inl ⟨e, rfl, rfl⟩
    | ok ds =>
      refine .inr ⟨ds, rfl, ?_⟩
      dsimp only
      split
      next h => exact .inl ⟨by simpa using h, rfl⟩
      next h => exact .inr ⟨by simpa using h, rfl⟩

/-- The pipeline on valid frames of the command from the device, with anything behind them. -/
theorem receive_validFrames (b : Bool) (dev : Byte) (cmd : Command) (n : Nat) (P : List Payload) (extra : Bytes)
    (hP : P.length = frameCount cmd n) :
    receive b dev cmd n (P.flatMap (validFrame dev cmd.code) ++ extra) = decodePayloads b cmd n P := by
  have hlen : (P.flatMap (validFrame dev cmd.code)).length = 13 * P.length := by
    simp [List.length_flatMap, Nat.mul_comm]
  have hds := decodeChunks_validFrames (known_code cmd) dev P
  rw [← chunks_flatMap (validFrame dev cmd.code) (fun _ => rfl) P extra, hP] at hds
  rcases receive_cases b dev cmd n (P.flatMap (validFrame dev cmd.code) ++ extra) with ⟨h, -⟩ | ⟨-, h⟩
  · rw [List.length_append, hlen, hP] at h; omega
  · rcases h with ⟨e, he, -⟩ | ⟨ds, he, h⟩
    · rw [hds] at he; cases he
    · rw [hds] at he; cases he
      rcases h with ⟨⟨d, hd, hne⟩, -⟩ | ⟨-, h⟩
      · obtain ⟨p, -, rfl⟩ := List.mem_map.mp hd
        exact absurd rfl hne
      · rw [h]; simp [Function.comp_def]

/-- Bytes past the frames do not matter. -/
theorem receive_append (b : Bool) (dev : Byte) (cmd : Command) (n : Nat) {A : Bytes}
    (hA : A.length = 13 * frameCount cmd n) (B : Bytes) : receive b dev cmd n (A ++ B) = receive b dev cmd n A := by
  have hc : (List.range (frameCount cmd n)).map (chunk (A ++ B)) = (List.range (frameCount cmd n)).map (chunk A) :=
    List.map_congr_left fun k hk => chunk_append (List.mem_range.mp hk) hA.ge B
  unfold receive
  dsimp only
  rw [hc, if_neg (by rw [List.length_append, hA]; simp), if_neg (by rw [hA]; simp)]

/-- The kinds RX_RESPONSE's computation gives (R200); never `LengthMismatch`, since every chunk has 13 bytes (C4). -/
theorem receive_error {b : Bool} {dev : Byte} {cmd : Command} {n : Nat} {B : Bytes} {e : ErrorKind}
    (h : receive b dev cmd n B = .error e) :
    e = .invalidResponseLength ∨ e = .checksumMismatch ∨ e = .headerMismatch ∨ e = .incompleteFrames ∨
      (e = .invalidEnumValue ∧ cmd = .mosfetStatus) := by
  rcases receive_cases b dev cmd n B with ⟨-, hr⟩ | ⟨hlen, ⟨e', he, hr⟩ | ⟨ds, -, ⟨-, hr⟩ | ⟨-, hr⟩⟩⟩
  · rw [hr] at h; cases h; exact .inl rfl
  · rw [hr] at h; cases h
    obtain ⟨C, hC, hCe⟩ := decodeChunks_error he
    obtain ⟨k, hk, rfl⟩ := List.mem_map.mp hC
    have h13 := chunk_length (List.mem_range.mp hk) hlen
    rcases decodeAuth_error hCe with h | ⟨-, -, -, rfl⟩
    · rcases decodeFrame_error h with ⟨-, hne⟩ | ⟨-, rfl | rfl⟩
      · exact absurd h13 hne
      · exact .inr (.inl rfl)
      · exact .inr (.inr (.inl rfl))
    · exact .inr (.inr (.inl rfl))
  · rw [hr] at h; cases h; exact .inr (.inr (.inr (.inl rfl)))
  · rw [hr] at h
    rcases decodePayloads_error h with rfl | h
    · exact .inr (.inr (.inr (.inl rfl)))
    · exact .inr (.inr (.inr (.inr h)))

end Sys2Proof.Machine
end

