-- ==== Sys2Proof/Laws/Exchange.lean ====
section
/-! SUPPORT. What one exchange can do, in the order of R225's steps. -/

namespace Sys2Proof.Machine

/-- The state after the request was written (R225 steps 1 and 2). -/
abbrev afterSend (s : State) (conn : Byte) (cmd : Command) : State := s.sendRequest (encodeRequest conn cmd.code)

/-- Each wire command is one exchange of its command, with its count. -/
theorem exec_commandInstr (cmd : Command) (n : Byte) (s : State) :
    exec (commandInstr cmd n) s = exchangeStep cmd n.toNat s := by
  cases cmd <;> rfl

/-- The state with `13 * N` bytes read, and what arrived after the read. -/
abbrev afterRead (s : State) (conn : Byte) (cmd : Command) (n : Nat) : State :=
  (((afterSend s conn cmd).awaitResponse (frameCount cmd n)).takeRx (13 * frameCount cmd n)).arrive s.linkEvent.late

theorem exchangeStep_unset {s : State} (h : s.connAddr = .unset) (cmd : Command) (n : Nat) :
    exchangeStep cmd n s = .refused .connAddrUnset := withConnAddr_unset h _

/-- R225 step 2, a short write. -/
theorem exchangeStep_shortWrite {s : State} {conn : Byte} (hc : s.connAddr = .set conn)
    (hw : s.linkEvent.written ≠ 13) (cmd : Command) (n : Nat) :
    exchangeStep cmd n s = .next (((afterSend s conn cmd).arrive s.linkEvent.late).failExchange (.error .transmitFailed)) := by
  rw [exchangeStep, withConnAddr_set hc]
  exact if_pos hw

/-- R225 step 4, a timeout. -/
theorem exchangeStep_timeout {s : State} {conn : Byte} (hc : s.connAddr = .set conn)
    (hw : s.linkEvent.written = 13) {cmd : Command} {n : Nat}
    (hl : (s.linkRx ++ s.linkEvent.reply).length < 13 * frameCount cmd n) :
    exchangeStep cmd n s = .next (((((afterSend s conn cmd).awaitResponse (frameCount cmd n)).takeRx
      s.linkEvent.takenByTimeout).arrive s.linkEvent.late).failExchange .timeout) := by
  rw [exchangeStep, withConnAddr_set hc]
  exact (if_neg (not_not.mpr hw)).trans (if_pos hl)

/-- R225 step 5. -/
theorem exchangeStep_read {s : State} {conn : Byte} (hc : s.connAddr = .set conn)
    (hw : s.linkEvent.written = 13) {cmd : Command} {n : Nat}
    (hl : 13 * frameCount cmd n ≤ (s.linkRx ++ s.linkEvent.reply).length) :
    exchangeStep cmd n s = concludeExchange cmd n s.linkEvent.late ((afterSend s conn cmd).awaitResponse (frameCount cmd n)) := by
  rw [exchangeStep, withConnAddr_set hc]
  exact (if_neg (not_not.mpr hw)).trans (if_neg (Nat.not_lt.mpr hl))

/-- R225 step 6 on `Err`. -/
theorem exchangeStep_error {s : State} {conn dev : Byte} (hc : s.connAddr = .set conn) (hd : s.devAddr = .set dev)
    (hw : s.linkEvent.written = 13) {cmd : Command} {n : Nat}
    (hl : 13 * frameCount cmd n ≤ (s.linkRx ++ s.linkEvent.reply).length) {e : ErrorKind}
    (hr : receive s.cellvPadSkip dev cmd n ((s.linkRx ++ s.linkEvent.reply).take (13 * frameCount cmd n)) = .error e) :
    exchangeStep cmd n s = .next (((afterRead s conn cmd n).withOutcome (.err e)).failExchange (.error e)) := by
  rw [exchangeStep_read hc hw hl, concludeExchange, withDevAddr_set (s := (afterSend s conn cmd).awaitResponse (frameCount cmd n)) hd]
  dsimp only [awaitResponse_linkRx, sendRequest_linkRx, awaitResponse_cellvPadSkip, sendRequest_cellvPadSkip,
    Config.frameLen]
  rw [hr]

/-- R225 step 6 on `Ok`. -/
theorem exchangeStep_ok {s : State} {conn dev : Byte} (hc : s.connAddr = .set conn) (hd : s.devAddr = .set dev)
    (hw : s.linkEvent.written = 13) {cmd : Command} {n : Nat}
    (hl : 13 * frameCount cmd n ≤ (s.linkRx ++ s.linkEvent.reply).length) {r : Response}
    (hr : receive s.cellvPadSkip dev cmd n ((s.linkRx ++ s.linkEvent.reply).take (13 * frameCount cmd n)) = .ok r) :
    exchangeStep cmd n s = .next ((afterRead s conn cmd n).completeExchange dev r) := by
  rw [exchangeStep_read hc hw hl, concludeExchange, withDevAddr_set (s := (afterSend s conn cmd).awaitResponse (frameCount cmd n)) hd]
  dsimp only [awaitResponse_linkRx, sendRequest_linkRx, awaitResponse_cellvPadSkip, sendRequest_cellvPadSkip,
    Config.frameLen]
  rw [hr]

/-- The four ways an exchange ends, and the two refusals. -/
theorem exchangeStep_cases (cmd : Command) (n : Nat) (s : State) :
    (s.connAddr = .unset ∧ exchangeStep cmd n s = .refused .connAddrUnset) ∨
    ∃ conn, s.connAddr = .set conn ∧
      ((s.linkEvent.written ≠ 13 ∧
          exchangeStep cmd n s = .next (((afterSend s conn cmd).arrive s.linkEvent.late).failExchange (.error .transmitFailed))) ∨
       exchangeStep cmd n s = .next (((((afterSend s conn cmd).awaitResponse (frameCount cmd n)).takeRx
          s.linkEvent.takenByTimeout).arrive s.linkEvent.late).failExchange .timeout) ∨
       (s.devAddr = .unset ∧ exchangeStep cmd n s = .refused .devAddrUnset) ∨
       ∃ dev, s.devAddr = .set dev ∧
        ((∃ e, receive s.cellvPadSkip dev cmd n
              ((s.linkRx ++ s.linkEvent.reply).take (13 * frameCount cmd n)) = .error e ∧
            exchangeStep cmd n s = .next (((afterRead s conn cmd n).withOutcome (.err e)).failExchange (.error e))) ∨
         ∃ r, receive s.cellvPadSkip dev cmd n
              ((s.linkRx ++ s.linkEvent.reply).take (13 * frameCount cmd n)) = .ok r ∧
            exchangeStep cmd n s = .next ((afterRead s conn cmd n).completeExchange dev r))) := by
  cases hc : s.connAddr with
  | unset => exact .inl ⟨rfl, exchangeStep_unset hc cmd n⟩
  | set conn =>
    refine .inr ⟨conn, rfl, ?_⟩
    by_cases hw : s.linkEvent.written = 13
    · refine .inr ?_
      by_cases hl : (s.linkRx ++ s.linkEvent.reply).length < 13 * frameCount cmd n
      · exact .inl (exchangeStep_timeout hc hw hl)
      · have hl := Nat.le_of_not_lt hl
        refine .inr ?_
        cases hd : s.devAddr with
        | unset => exact .inl ⟨rfl, by rw [exchangeStep_read hc hw hl, concludeExchange, withDevAddr_unset (s := (afterSend s conn cmd).awaitResponse (frameCount cmd n)) hd]⟩
        | set dev =>
          refine .inr ⟨dev, rfl, ?_⟩
          cases hr : receive s.cellvPadSkip dev cmd n ((s.linkRx ++ s.linkEvent.reply).take (13 * frameCount cmd n)) with
          | error e => exact .inl ⟨e, rfl, exchangeStep_error hc hd hw hl hr⟩
          | ok r => exact .inr ⟨r, rfl, exchangeStep_ok hc hd hw hl hr⟩
    · exact .inl ⟨hw, exchangeStep_shortWrite hc hw cmd n⟩

/-- What every exchange leaves alone, and how it ends. -/
theorem exchangeStep_next {cmd : Command} {n : Nat} {s t : State} (h : exchangeStep cmd n s = .next t) :
    t.connAddr = s.connAddr ∧ t.devAddr = s.devAddr ∧ t.cellvPadSkip = s.cellvPadSkip ∧ t.pending = s.pending ∧
    t.linkEvents = s.linkEvents.tail ∧
    (∃ conn, s.connAddr = .set conn ∧
      t.linkTx = s.linkTx ++ (requestFrame conn cmd.code).take s.linkEvent.written) ∧
    (∃ k m, t.linkRx = ((s.linkRx ++ s.linkEvent.reply).drop k ++ s.linkEvent.late).drop m) ∧
    ((∃ f, t.exchange = .failed f ∧ t.countCache = s.countCache) ∨
      ∃ conn dev r, s.connAddr = .set conn ∧ s.devAddr = .set dev ∧
        receive s.cellvPadSkip dev cmd n ((s.linkRx ++ s.linkEvent.reply).take (13 * frameCount cmd n)) = .ok r ∧
        t = (afterRead s conn cmd n).completeExchange dev r) := by
  rcases exchangeStep_cases cmd n s with
    ⟨-, hx⟩ | ⟨conn, hc, ⟨-, hx⟩ | hx | ⟨-, hx⟩ | ⟨dev, hd, ⟨e, -, hx⟩ | ⟨r, hr, hx⟩⟩⟩
  all_goals rw [hx] at h
  · cases h
  · cases h
    exact ⟨by simp, by simp, by simp, by simp, by simp, ⟨conn, hc, by simp [encodeRequest_bytes]⟩, ⟨0, 100, by simp⟩, .inl ⟨_, failExchange_exchange .., by simp⟩⟩
  · cases h
    exact ⟨by simp, by simp, by simp, by simp, by simp, ⟨conn, hc, by simp [encodeRequest_bytes]⟩,
      ⟨s.linkEvent.takenByTimeout, 100, by simp⟩, .inl ⟨_, failExchange_exchange .., by simp⟩⟩
  · cases h
  · cases h
    exact ⟨by simp, by simp, by simp, by simp, by simp, ⟨conn, hc, by simp [encodeRequest_bytes]⟩,
      ⟨13 * frameCount cmd n, 100, by simp⟩, .inl ⟨_, failExchange_exchange .., by simp⟩⟩
  · cases h
    exact ⟨by simp, by simp, by simp, by simp, by simp, ⟨conn, hc, by simp [encodeRequest_bytes]⟩,
      ⟨13 * frameCount cmd n, 0, by simp⟩, .inr ⟨conn, dev, r, hc, hd, hr, rfl⟩⟩

/-- The state an exchange leaves that ends in a record, when its response was the first on the link. -/
theorem completeExchange_eq_afterExchange {s : State} {conn dev : Byte} {cmd : Command} {n : Nat} {buf rest : Bytes}
    (h : s.replyWaits conn dev buf rest) (hl : buf.length = 13 * frameCount cmd n) (r : Response) :
    (afterRead s conn cmd n).completeExchange dev r = s.afterExchange (requestFrame conn cmd.code) rest r
      ((afterRead s conn cmd n).completeExchange dev r).countCache := by
  obtain ⟨hc, hd, hw, hb⟩ := h
  have hrx : ((afterRead s conn cmd n).completeExchange dev r).linkRx = rest ++ s.linkEvent.late := by
    simp [hb, ← hl]
  have htx : ((afterRead s conn cmd n).completeExchange dev r).linkTx = s.linkTx ++ requestFrame conn cmd.code := by
    simp [hw, encodeRequest_bytes, requestFrame, validFrame]
  simp only [State.afterExchange]
  rw [← hrx, ← htx]
  rfl

end Sys2Proof.Machine
end

