-- ==== Sys2Proof/Laws/Exec.lean ====
section
/-! SUPPORT. exec of the operations with a checked operand or a computation that can fail, in one rewriting each; and what the
computations give in the terms of the statements. -/

namespace Sys2Proof.Machine

/-! ### Operations -/

theorem exec_encReq (cmd : Command) {s : State} {conn : Byte} (h : s.connAddr = .set conn) :
    exec (.encReq cmd.code) s = .next { s with outcome := some (.ok (.frame (encodeRequest conn cmd.code))) } := by
  change withCommand cmd.code (fun cmd => withConnAddr s fun conn => done (.frame (encodeRequest conn cmd.code)) s) = _
  rw [withCommand_code, withConnAddr_set h, done_eq]

theorem exec_encReq_unset (cmd : Command) {s : State} (h : s.connAddr = .unset) :
    exec (.encReq cmd.code) s = .refused .connAddrUnset := by
  change withCommand cmd.code (fun cmd => withConnAddr s fun conn => done (.frame (encodeRequest conn cmd.code)) s) = _
  rw [withCommand_code, withConnAddr_unset h]

theorem exec_decAuth {s : State} {dev : Byte} (h : s.devAddr = .set dev) (F : Bytes) :
    exec (.decAuth F) s = finish ((decodeAuth dev F).map fun d => .authenticated d.code d.payload) s :=
  withDevAddr_set h _

theorem exec_framecount (cmd : Command) (n : Byte) (s : State) :
    exec (.framecount cmd.code n) s = .next { s with outcome := some (.ok (.int (frameCount cmd n.toNat))) } := by
  change withCommand cmd.code (fun cmd => done (.int (frameCount cmd n.toNat)) s) = _
  rw [withCommand_code, done_eq]

theorem exec_rxResponse (cmd : Command) (n : Byte) (B : Bytes) {s : State} {dev : Byte} (h : s.devAddr = .set dev) :
    exec (.rxResponse cmd.code n B) s = finish ((receive s.cellvPadSkip dev cmd n.toNat B).map .record) s := by
  change withCommand cmd.code (fun cmd => withDevAddr s fun dev =>
    finish ((receive s.cellvPadSkip dev cmd n.toNat B).map .record) s) = _
  rw [withCommand_code, withDevAddr_set h]

theorem exec_rxResponse_unset (cmd : Command) (n : Byte) (B : Bytes) {s : State} (h : s.devAddr = .unset) :
    exec (.rxResponse cmd.code n B) s = .refused .devAddrUnset := by
  change withCommand cmd.code (fun cmd => withDevAddr s fun dev =>
    finish ((receive s.cellvPadSkip dev cmd n.toNat B).map .record) s) = _
  rw [withCommand_code, withDevAddr_unset h]

theorem exec_scaled (h l : Byte) {k : Byte} (hk : k.toNat ≤ 3) (s : State) :
    exec (.scaled h l k) s = .next { s with outcome := some (.ok (.fixed (scaled h l k.toNat))) } :=
  withExponent_le hk (fun k => done (.fixed (scaled h l k)) s)

theorem exec_scaled_refused (h l : Byte) {k : Byte} (hk : ¬ k.toNat ≤ 3) (s : State) :
    exec (.scaled h l k) s = .refused (.exponentOutsideType k) :=
  withExponent_gt hk (fun k => done (.fixed (scaled h l k)) s)

theorem exec_offscaled (h l : Byte) (off : BitVec 16) {k : Byte} (hk : k.toNat ≤ 3) (s : State) :
    exec (.offscaled h l off k) s = .next { s with outcome := some (.ok (.fixed (offScaled h l off k.toNat))) } :=
  withExponent_le hk (fun k => done (.fixed (offScaled h l off k)) s)

theorem exec_offscaled_refused (h l : Byte) (off : BitVec 16) {k : Byte} (hk : ¬ k.toNat ≤ 3) (s : State) :
    exec (.offscaled h l off k) s = .refused (.exponentOutsideType k) :=
  withExponent_gt hk (fun k => done (.fixed (offScaled h l off k)) s)

/-! ### Completion and failure as the computation's result -/

theorem finish_map_completes_iff {α : Type} {r : Except ErrorKind α} {f : α → Result} {s : State} {v : Result} :
    finish (r.map f) s = .next { s with outcome := some (.ok v) } ↔ ∃ a, r = .ok a ∧ f a = v := by
  rw [finish_completes_iff]
  cases r <;> simp [Except.map]

theorem finish_map_fails_iff {α : Type} {r : Except ErrorKind α} {f : α → Result} {s : State} {e : ErrorKind} :
    finish (r.map f) s = .next { s with outcome := some (.err e) } ↔ r = .error e := by
  rw [finish_fails_iff]
  cases r <;> simp [Except.map]

theorem decFrame_completes_iff {F : Bytes} {s : State} {d : DecodedFrame} :
    Completes (.decFrame F) s (.decoded d) ↔ decodeFrame F = .ok d :=
  (finish_map_completes_iff (f := Result.decoded)).trans (by simp)

theorem decFrame_fails_iff {F : Bytes} {s : State} {e : ErrorKind} :
    Fails (.decFrame F) s e ↔ decodeFrame F = .error e := finish_map_fails_iff (f := Result.decoded)

theorem decAuth_completes_iff {F : Bytes} {s : State} {dev c : Byte} {p : Payload} (h : s.devAddr = .set dev) :
    Completes (.decAuth F) s (.authenticated c p) ↔ decodeAuth dev F = .ok ⟨c, dev, p⟩ := by
  unfold Completes
  rw [exec_decAuth h, finish_map_completes_iff]
  constructor
  · rintro ⟨d, hd, hv⟩
    have ha := (decodeAuth_ok_iff.mp hd).2
    obtain ⟨c', a', p'⟩ := d
    cases hv; cases ha; exact hd
  · intro h; exact ⟨_, h, rfl⟩

theorem decAuth_fails_iff {F : Bytes} {s : State} {dev : Byte} {e : ErrorKind} (h : s.devAddr = .set dev) :
    Fails (.decAuth F) s e ↔ decodeAuth dev F = .error e := by
  unfold Fails
  rw [exec_decAuth h, finish_map_fails_iff]

theorem rxResponse_completes_iff {cmd : Command} {n : Byte} {B : Bytes} {s : State} {dev : Byte}
    (h : s.devAddr = .set dev) {r : Response} :
    Completes (.rxResponse cmd.code n B) s (.record r) ↔ receive s.cellvPadSkip dev cmd n.toNat B = .ok r := by
  unfold Completes
  rw [exec_rxResponse cmd n B h, finish_map_completes_iff]
  simp

theorem rxResponse_fails_iff {cmd : Command} {n : Byte} {B : Bytes} {s : State} {dev : Byte}
    (h : s.devAddr = .set dev) {e : ErrorKind} :
    Fails (.rxResponse cmd.code n B) s e ↔ receive s.cellvPadSkip dev cmd n.toNat B = .error e := by
  unfold Fails
  rw [exec_rxResponse cmd n B h, finish_map_fails_iff]

theorem framecount_completes_iff {cmd : Command} {n : Byte} {s : State} {v : Int} :
    Completes (.framecount cmd.code n) s (.int v) ↔ v = frameCount cmd n.toNat := by
  unfold Completes
  rw [exec_framecount]
  exact ⟨fun h => by cases withOutcome_inj h; rfl, fun h => by rw [h]⟩

/-- FRAMECOUNT completes for the nine commands only. -/
theorem framecount_completes {code n : Byte} {s : State} {v : Result} (h : Completes (.framecount code n) s v) :
    ∃ cmd : Command, cmd.code = code ∧ v = .int (frameCount cmd n.toNat) := by
  rcases withCommand_cases code (fun cmd => done (.int (frameCount cmd n.toNat)) s) with ⟨-, hr⟩ | ⟨cmd, rfl, -⟩
  · cases hr.symm.trans h
  · unfold Completes at h
    rw [exec_framecount] at h
    cases withOutcome_inj h
    exact ⟨cmd, rfl, rfl⟩

theorem reasm_completes_iff {P : List Payload} {N : Nat} {s : State} {S : Bytes} :
    Completes (.reasm P N) s (.stream S) ↔ reassemble P N = .ok S :=
  (finish_map_completes_iff (f := Result.stream)).trans (by simp)

theorem reasm_fails_iff {P : List Payload} {N : Nat} {s : State} {e : ErrorKind} :
    Fails (.reasm P N) s e ↔ reassemble P N = .error e := finish_map_fails_iff (f := Result.stream)

theorem pMosfet_fails_iff {p : Payload} {s : State} {e : ErrorKind} :
    Fails (.pMosfet p) s e ↔ profileMosfet p = .error e :=
  finish_map_fails_iff (f := fun r => Result.record (.mosfetStatus r))

theorem pMosfet_completes_iff {p : Payload} {s : State} {r : MosfetStatus} :
    Completes (.pMosfet p) s (.record (.mosfetStatus r)) ↔ profileMosfet p = .ok r :=
  (finish_map_completes_iff (f := fun r => Result.record (.mosfetStatus r))).trans (by simp)

theorem pCellv_fails_iff {S : Bytes} {n : Byte} {s : State} {e : ErrorKind} :
    Fails (.pCellv S n) s e ↔ profileCellv s.cellvPadSkip S n.toNat = .error e :=
  finish_map_fails_iff (f := fun l => Result.record (.cellVoltages l))

theorem pCellv_completes_iff {S : Bytes} {n : Byte} {s : State} {l : List Fixed} :
    Completes (.pCellv S n) s (.record (.cellVoltages l)) ↔ profileCellv s.cellvPadSkip S n.toNat = .ok l :=
  (finish_map_completes_iff (f := fun l => Result.record (.cellVoltages l))).trans (by simp)

theorem pCellt_fails_iff {S : Bytes} {n : Byte} {s : State} {e : ErrorKind} :
    Fails (.pCellt S n) s e ↔ profileCellt S n.toNat = .error e :=
  finish_map_fails_iff (f := fun l => Result.record (.cellTemperatures l))

theorem pCellt_completes_iff {S : Bytes} {n : Byte} {s : State} {l : List Int} :
    Completes (.pCellt S n) s (.record (.cellTemperatures l)) ↔ profileCellt S n.toNat = .ok l :=
  (finish_map_completes_iff (f := fun l => Result.record (.cellTemperatures l))).trans (by simp)

theorem pBal_fails_iff {p : Payload} {n : Byte} {s : State} {e : ErrorKind} :
    Fails (.pBal p n) s e ↔ profileBal p n.toNat = .error e :=
  finish_map_fails_iff (f := fun l => Result.record (.balanceStates l))

theorem pBal_completes_iff {p : Payload} {n : Byte} {s : State} {l : List Bool} :
    Completes (.pBal p n) s (.record (.balanceStates l)) ↔ profileBal p n.toNat = .ok l :=
  (finish_map_completes_iff (f := fun l => Result.record (.balanceStates l))).trans (by simp)

/-! ### Checks and bits by themselves -/

/-- DEC_FRAME's second check. -/
theorem decodeFrame_of_checksum {F : Bytes} (hl : F.length = 13) (hx : F[12]? ≠ some (byteSum (F.take 12))) :
    decodeFrame F = .error .checksumMismatch := by
  obtain ⟨a, c, m, k, x0, x1, x2, x3, x4, x5, x6, x7, x, rfl⟩ := exists_of_length_thirteen hl
  rw [decodeFrame_thirteen]
  simp only [List.getElem?_cons_zero, List.getElem?_cons_succ, Option.some.injEq, List.take_succ_cons, List.take_zero,
    ne_eq] at hx
  rw [if_pos (by simpa [chk_eq_byteSum] using hx)]

/-- DEC_FRAME's header checks. -/
theorem decodeFrame_of_header {F : Bytes} (hl : F.length = 13) (hx : F[12]? = some (byteSum (F.take 12)))
    (hh : F[0]? ≠ some 0xA5#8 ∨ F[3]? ≠ some 0x08#8 ∨ ∀ c, F[2]? = some c → known c = false) :
    decodeFrame F = .error .headerMismatch := by
  obtain ⟨a, c, m, k, x0, x1, x2, x3, x4, x5, x6, x7, x, rfl⟩ := exists_of_length_thirteen hl
  rw [decodeFrame_thirteen]
  simp only [List.getElem?_cons_zero, List.getElem?_cons_succ, Option.some.injEq, List.take_succ_cons, List.take_zero,
    ne_eq] at hx hh
  rw [if_neg (by simp [chk_eq_byteSum, hx])]
  by_cases hm : m = 0xA5#8
  · by_cases hk : k = 0x08#8
    · have hc : known c = false := by simpa [hm, hk] using hh
      simp [hm, hk, hc]
    · simp [hk]
  · simp [hm]

theorem bit_eq_getLsbD (v : Byte) (i : Nat) : bit v i = v.getLsbD i := by
  unfold bit
  split
  · rename_i h; exact (BitVec.getLsbD_of_ge v i h).symm
  · rw [BitVec.getLsbD, Nat.testBit_eq_decide_div_mod_eq]; rfl

end Sys2Proof.Machine
end

