-- ==== Sys2Proof/Laws/PerInstr.lean ====
section
/-! SUPPORT. Statements about every instruction as syntax, one lemma per constructor. -/

namespace Sys2Proof.Laws.Selector

/-- The presentation of `i` starts with a selector of `i`'s own format in the opcode table and has at least the operand
bytes that the shortest presentation with that selector has. -/
def Statement (i : Instr) : Prop :=
  ∃ sel a, encode i = ⟨tableFormat sel, sel :: a⟩ ∧ shortestOperands (tableFormat sel) sel ≤ a.length

theorem countGroups_length_pos (fuel n : Nat) : 1 ≤ (countGroups fuel n).length := by
  cases fuel with
  | zero => simp [countGroups]
  | succ fuel => simp only [countGroups]; split <;> simp

theorem encReq (code : Byte) : Statement (.encReq code) := ⟨0x01#8, _, rfl, Nat.le_of_ble_eq_true rfl⟩

theorem chksum (B : Bytes) : Statement (.chksum B) := ⟨0x02#8, _, rfl, Nat.le_of_ble_eq_true rfl⟩

theorem decFrame (F : Bytes) : Statement (.decFrame F) := ⟨0x03#8, _, rfl, Nat.le_of_ble_eq_true rfl⟩

theorem decAuth (F : Bytes) : Statement (.decAuth F) := ⟨0x04#8, _, rfl, Nat.le_of_ble_eq_true rfl⟩

theorem u16be (h l : Byte) : Statement (.u16be h l) := ⟨0x10#8, _, rfl, Nat.le_of_ble_eq_true rfl⟩

theorem u32be (b0 b1 b2 b3 : Byte) : Statement (.u32be b0 b1 b2 b3) := ⟨0x11#8, _, rfl, Nat.le_of_ble_eq_true rfl⟩

theorem scaled (h l k : Byte) : Statement (.scaled h l k) := ⟨0x12#8, _, rfl, Nat.le_of_ble_eq_true rfl⟩

theorem offscaled (h l : Byte) (off : BitVec 16) (k : Byte) : Statement (.offscaled h l off k) := ⟨0x13#8, _, rfl, Nat.le_of_ble_eq_true rfl⟩

theorem offbyte (raw off : Byte) : Statement (.offbyte raw off) := ⟨0x14#8, _, rfl, Nat.le_of_ble_eq_true rfl⟩

theorem bit (v idx : Byte) : Statement (.bit v idx) := ⟨0x15#8, _, rfl, Nat.le_of_ble_eq_true rfl⟩

theorem framecount (code n : Byte) : Statement (.framecount code n) := ⟨0x20#8, _, rfl, Nat.le_of_ble_eq_true rfl⟩

theorem reasm (P : List Payload) (N : Nat) : Statement (.reasm P N) := by
  refine ⟨0x21#8, _, rfl, ?_⟩
  have h := countGroups_length_pos (N + 1) N
  simp [tableFormat, known, commandOf, shortestOperands]; omega

theorem rxResponse (code n : Byte) (RXB : Bytes) : Statement (.rxResponse code n RXB) := ⟨0x22#8, _, rfl, Nat.le_of_ble_eq_true rfl⟩

theorem pSoc (p : Payload) : Statement (.pSoc p) := ⟨0x30#8, _, rfl, Nat.le_of_ble_eq_true rfl⟩

theorem pCvlim (p : Payload) : Statement (.pCvlim p) := ⟨0x31#8, _, rfl, Nat.le_of_ble_eq_true rfl⟩

theorem pCtlim (p : Payload) : Statement (.pCtlim p) := ⟨0x32#8, _, rfl, Nat.le_of_ble_eq_true rfl⟩

theorem pMosfet (p : Payload) : Statement (.pMosfet p) := ⟨0x33#8, _, rfl, Nat.le_of_ble_eq_true rfl⟩

theorem pStatus (p : Payload) : Statement (.pStatus p) := ⟨0x34#8, _, rfl, Nat.le_of_ble_eq_true rfl⟩

theorem pCellv (S : Bytes) (n : Byte) : Statement (.pCellv S n) := ⟨0x35#8, _, rfl, by simp [tableFormat, known, commandOf, shortestOperands]⟩

theorem pCellt (S : Bytes) (n : Byte) : Statement (.pCellt S n) := ⟨0x36#8, _, rfl, by simp [tableFormat, known, commandOf, shortestOperands]⟩

theorem pBal (p : Payload) (n : Byte) : Statement (.pBal p n) := ⟨0x37#8, _, rfl, Nat.le_of_ble_eq_true rfl⟩

theorem pFail (p : Payload) : Statement (.pFail p) := ⟨0x38#8, _, rfl, Nat.le_of_ble_eq_true rfl⟩

theorem cmdStateOfCharge : Statement .cmdStateOfCharge := ⟨0x90#8, _, rfl, Nat.le_of_ble_eq_true rfl⟩

theorem cmdCellVoltageLimits : Statement .cmdCellVoltageLimits := ⟨0x91#8, _, rfl, Nat.le_of_ble_eq_true rfl⟩

theorem cmdCellTemperatureLimits : Statement .cmdCellTemperatureLimits := ⟨0x92#8, _, rfl, Nat.le_of_ble_eq_true rfl⟩

theorem cmdMosfetStatus : Statement .cmdMosfetStatus := ⟨0x93#8, _, rfl, Nat.le_of_ble_eq_true rfl⟩

theorem cmdStatus : Statement .cmdStatus := ⟨0x94#8, _, rfl, Nat.le_of_ble_eq_true rfl⟩

theorem cmdCellVoltages (n : Byte) : Statement (.cmdCellVoltages n) := ⟨0x95#8, _, rfl, Nat.le_of_ble_eq_true rfl⟩

theorem cmdTemperatures (n : Byte) : Statement (.cmdTemperatures n) := ⟨0x96#8, _, rfl, Nat.le_of_ble_eq_true rfl⟩

theorem cmdBalanceStates (n : Byte) : Statement (.cmdBalanceStates n) := ⟨0x97#8, _, rfl, Nat.le_of_ble_eq_true rfl⟩

theorem cmdFailures : Statement .cmdFailures := ⟨0x98#8, _, rfl, Nat.le_of_ble_eq_true rfl⟩

end Sys2Proof.Laws.Selector
end

