-- ==== Sys2Proof/Laws/Profiles.lean ====
section
/-! SUPPORT. The profiles in the terms of their rules: a payload as one 64-bit number, the data bytes of a stream in both
readings of C2, and when a profile succeeds. -/

namespace Sys2Proof.Machine

/-! ### Payload bits -/

theorem getLsbD_append_byte {w : Nat} (x : BitVec w) (l : Byte) (i : Nat) :
    (x ++ l).getLsbD i = if i < 8 then l.getLsbD i else x.getLsbD (i - 8) := by
  rw [BitVec.getLsbD_append]

/-- Bit `i mod 8` of byte `i div 8` is bit `i` of the payload as a number with byte 0 the least significant. -/
theorem payload_bit (p : Payload) {i : Nat} (hi : i < 64) : (payloadByte p (i / 8)).getLsbD (i % 8) =
    (p.b7 ++ p.b6 ++ p.b5 ++ p.b4 ++ p.b3 ++ p.b2 ++ p.b1 ++ p.b0 : BitVec 64).getLsbD i := by
  simp only [getLsbD_append_byte]
  rcases (by omega : i / 8 = 0 ∨ i / 8 = 1 ∨ i / 8 = 2 ∨ i / 8 = 3 ∨ i / 8 = 4 ∨ i / 8 = 5 ∨ i / 8 = 6 ∨ i / 8 = 7) with
    h | h | h | h | h | h | h | h <;> rw [h]
  · rw [if_pos (by omega), show i % 8 = i by omega]; rfl
  · rw [if_neg (by omega), if_pos (by omega), show i % 8 = i - 8 by omega]; rfl
  · iterate 2 rw [if_neg (by omega)]
    rw [if_pos (by omega), show i % 8 = i - 8 - 8 by omega]; rfl
  · iterate 3 rw [if_neg (by omega)]
    rw [if_pos (by omega), show i % 8 = i - 8 - 8 - 8 by omega]; rfl
  · iterate 4 rw [if_neg (by omega)]
    rw [if_pos (by omega), show i % 8 = i - 8 - 8 - 8 - 8 by omega]; rfl
  · iterate 5 rw [if_neg (by omega)]
    rw [if_pos (by omega), show i % 8 = i - 8 - 8 - 8 - 8 - 8 by omega]; rfl
  · iterate 6 rw [if_neg (by omega)]
    rw [if_pos (by omega), show i % 8 = i - 8 - 8 - 8 - 8 - 8 - 8 by omega]; rfl
  · iterate 7 rw [if_neg (by omega)]
    rw [show i % 8 = i - 8 - 8 - 8 - 8 - 8 - 8 - 8 by omega]; rfl

/-- Seven digits to base 256, by powers and nested. -/
theorem seven_digits (a b c d e f g : Nat) (ha : a < 256) (hb : b < 256) (hc : c < 256) (hd : d < 256) (he : e < 256)
    (hf : f < 256) (hg : g < 256) :
    (a + b * 256 + c * 65536 + d * 16777216 + e * 4294967296 + f * 1099511627776 + g * 281474976710656) %
      18446744073709551616 = (((((g * 256 + f) * 256 + e) * 256 + d) * 256 + c) * 256 + b) * 256 + a := by omega

theorem failWord_toNat (p : Payload) : (failWord p).toNat =
    (p.b0.toNat + p.b1.toNat * 256 + p.b2.toNat * 65536 + p.b3.toNat * 16777216 + p.b4.toNat * 4294967296 +
      p.b5.toNat * 1099511627776 + p.b6.toNat * 281474976710656) % 18446744073709551616 := by
  rw [failWord, BitVec.toNat_ofNat]
  simp only [List.range_succ, List.range_zero, List.nil_append, List.map_append, List.map_cons, List.map_nil,
    List.sum_append, List.sum_cons, List.sum_nil, Nat.add_zero]
  norm_num [payloadByte, byteAt, Payload.bytes]

/-- The backing word as bytes one after the other. -/
theorem failWord_eq_append (p : Payload) :
    failWord p = 0#8 ++ p.b6 ++ p.b5 ++ p.b4 ++ p.b3 ++ p.b2 ++ p.b1 ++ p.b0 := by
  apply BitVec.eq_of_toNat_eq
  rw [failWord_toNat, seven_digits _ _ _ _ _ _ _ p.b0.isLt p.b1.isLt p.b2.isLt p.b3.isLt p.b4.isLt p.b5.isLt p.b6.isLt]
  simp only [toNat_append_byte, BitVec.toNat_zero, Nat.zero_mul, Nat.zero_add]

/-- Flag `f` by its byte and bit, and as a bit of the backing word. -/
theorem failWord_bit (p : Payload) {f : Nat} (hf : f < 56) :
    (payloadByte p (f / 8)).getLsbD (f % 8) = (failWord p).getLsbD f := by
  rw [failWord_eq_append, payload_bit p (by omega)]
  simp only [getLsbD_append_byte]
  repeat' split
  all_goals first | rfl | omega

theorem decide_toNat_pos (b : Byte) : decide (b.toNat > 0) = (b != 0#8) := by revert b; decide

/-! ### When a profile succeeds -/

theorem chargeState_of_le {b : Byte} (h : b.toNat ≤ 2) : ∃ st, chargeState b = .ok st ∧
    (st = .idle ↔ b = 0#8) ∧ (st = .charging ↔ b = 1#8) ∧ (st = .discharging ↔ b = 2#8) := by
  have hb : b = 0#8 ∨ b = 1#8 ∨ b = 2#8 := by
    rcases (by omega : b.toNat = 0 ∨ b.toNat = 1 ∨ b.toNat = 2) with h | h | h
    · exact .inl (BitVec.eq_of_toNat_eq h)
    · exact .inr (.inl (BitVec.eq_of_toNat_eq h))
    · exact .inr (.inr (BitVec.eq_of_toNat_eq h))
  rcases hb with rfl | rfl | rfl
  · exact ⟨.idle, rfl, by decide⟩
  · exact ⟨.charging, rfl, by decide⟩
  · exact ⟨.discharging, rfl, by decide⟩

theorem chargeState_of_gt {b : Byte} (h : 2 < b.toNat) : chargeState b = .error .invalidEnumValue := by
  unfold chargeState
  rw [if_neg (by rintro rfl; simp at h), if_neg (by rintro rfl; simp at h), if_neg (by rintro rfl; simp at h)]

theorem profileMosfet_of_le {p : Payload} (h : p.b0.toNat ≤ 2) : ∃ r, profileMosfet p = .ok r := by
  obtain ⟨st, h1, -⟩ := chargeState_of_le h
  exact ⟨⟨st, p.b1, p.b2, p.b3, u32 p.b4 p.b5 p.b6 p.b7⟩, by simp [profileMosfet, h1]⟩

theorem profileMosfet_of_gt {p : Payload} (h : 2 < p.b0.toNat) : profileMosfet p = .error .invalidEnumValue := by
  simp [profileMosfet, chargeState_of_gt h]

theorem profileBal_of_le (p : Payload) {n : Nat} (h : n ≤ 64) :
    profileBal p n = .ok ((List.range n).map fun i => bit (payloadByte p (i / 8)) (i % 8)) := if_neg (by omega)

theorem profileBal_of_gt (p : Payload) {n : Nat} (h : 64 < n) : profileBal p n = .error .incompleteFrames := if_pos h

theorem profileCellt_of_le {S : Bytes} {n : Nat} (h : n ≤ S.length) :
    profileCellt S n = .ok ((List.range n).map fun i => offByte (byteAt S i) Config.temperatureOffset) :=
  if_neg (by omega)

theorem profileCellt_of_lt {S : Bytes} {n : Nat} (h : S.length < n) : profileCellt S n = .error .incompleteFrames :=
  if_pos h

/-! ### The data bytes of a stream -/

/-- The bytes of a stream that P_CELLV reads (R166, C2). -/
def dataBytes (padSkip : Bool) (S : Bytes) : Bytes := if padSkip then dropPads S else S

@[simp] theorem dataBytes_false (S : Bytes) : dataBytes false S = S := rfl

@[simp] theorem dataBytes_true (S : Bytes) : dataBytes true S = dropPads S := rfl

theorem profileCellv_of_le {b : Bool} {S : Bytes} {n : Nat} (h : 2 * n ≤ (dataBytes b S).length) :
    profileCellv b S n = .ok ((List.range n).map fun i =>
      scaled (byteAt (dataBytes b S) (2 * i)) (byteAt (dataBytes b S) (2 * i + 1)) 3) := if_neg (Nat.not_lt.mpr h)

theorem profileCellv_of_lt {b : Bool} {S : Bytes} {n : Nat} (h : (dataBytes b S).length < 2 * n) :
    profileCellv b S n = .error .incompleteFrames := if_pos h

theorem dropPads_short {S : Bytes} (h : 0 < S.length) (h7 : S.length ≤ 7) : dropPads S = S.take 6 := by
  unfold dropPads
  rw [show (S.length + 6) / 7 = 1 by omega]
  simp [List.range_succ, slice]

theorem dropPads_append {A : Bytes} (hA : A.length = 7) (S : Bytes) : dropPads (A ++ S) = A.take 6 ++ dropPads S := by
  unfold dropPads
  rw [show ((A ++ S).length + 6) / 7 = (S.length + 6) / 7 + 1 by simp [hA]; omega, List.range_succ_eq_map,
    List.flatMap_cons, List.flatMap_map]
  congr 1
  · simp only [slice, Nat.mul_zero, List.drop_zero]
    rw [List.take_append_of_le_length (by omega)]
  · congr 1
    funext j
    simp only [slice]
    rw [show 7 * j.succ = A.length + 7 * j by rw [hA]; omega, List.drop_append, List.drop_eq_nil_of_le (by omega),
      List.nil_append, Nat.add_sub_cancel_left]

/-- How many data bytes a stream has with byte 6 of each region dropped, and where data byte `j` stands in the stream. -/
theorem dropPads_spec (S : Bytes) : (dropPads S).length = S.length - S.length / 7 ∧
    ∀ j < S.length - S.length / 7, (dropPads S).getD j 0#8 = S.getD (j + j / 6) 0#8 := by
  induction hn : S.length using Nat.strong_induction_on generalizing S with
  | _ n ih =>
  subst hn
  by_cases h : S.length < 7
  · by_cases h0 : S.length = 0
    · rw [List.length_eq_zero_iff] at h0; subst h0; exact ⟨rfl, by simp⟩
    · rw [dropPads_short (by omega) (by omega)]
      refine ⟨by simp; omega, fun j hj => ?_⟩
      rw [show j / 6 = 0 by omega, List.getD_eq_getElem?_getD, List.getElem?_take, if_pos (by omega),
        List.getD_eq_getElem?_getD]
      rfl
  · obtain ⟨hl, hj⟩ := ih (S.length - 7) (by omega) (S.drop 7) (by simp)
    have hs : dropPads S = (S.take 7).take 6 ++ dropPads (S.drop 7) := by
      conv_lhs => rw [← List.take_append_drop 7 S]
      exact dropPads_append (by simp; omega) _
    rw [hs]
    refine ⟨by rw [List.length_append, hl]; simp; omega, fun j hjl => ?_⟩
    by_cases hj6 : j < 6
    · rw [show j / 6 = 0 by omega, List.getD_eq_getElem?_getD, List.getElem?_append_left (by simp; omega),
        List.getD_eq_getElem?_getD, List.take_take, List.getElem?_take, if_pos (by omega)]
      rfl
    · have hlen : ((S.take 7).take 6).length = 6 := by simp; omega
      rw [List.getD_eq_getElem?_getD, List.getElem?_append_right (by omega), hlen, ← List.getD_eq_getElem?_getD,
        hj (j - 6) (by omega), List.getD_eq_getElem?_getD, List.getElem?_drop, List.getD_eq_getElem?_getD]
      congr 2
      omega

end Sys2Proof.Machine
end

