-- ==== Sys2Proof/Laws/Typed.lean ====
section
/-! SUPPORT. The computations keep to their result types (R27, R71, R127), and small facts that whole-machine statements
need. -/

namespace Sys2Proof.Machine

/-- Each instruction is a wire command or an operation of the block. -/
theorem commandInstr_or_isOperation (i : Instr) : (∃ cmd n, i = commandInstr cmd n) ∨ i.isOperation = true := by
  cases i
  case cmdStateOfCharge => exact .inl ⟨.stateOfCharge, 0#8, rfl⟩
  case cmdCellVoltageLimits => exact .inl ⟨.cellVoltageLimits, 0#8, rfl⟩
  case cmdCellTemperatureLimits => exact .inl ⟨.cellTemperatureLimits, 0#8, rfl⟩
  case cmdMosfetStatus => exact .inl ⟨.mosfetStatus, 0#8, rfl⟩
  case cmdStatus => exact .inl ⟨.status, 0#8, rfl⟩
  case cmdCellVoltages n => exact .inl ⟨.cellVoltages, n, rfl⟩
  case cmdTemperatures n => exact .inl ⟨.temperatures, n, rfl⟩
  case cmdBalanceStates n => exact .inl ⟨.balanceStates, n, rfl⟩
  case cmdFailures => exact .inl ⟨.failures, 0#8, rfl⟩
  all_goals exact .inr rfl

theorem CfgReg.unset_or_set (c : CfgReg) : c = .unset ∨ ∃ v, c = .set v := by
  cases c with
  | unset => exact .inl rfl
  | set v => exact .inr ⟨v, rfl⟩

theorem except_map_ok {α β : Type} {r : Except ErrorKind α} {f : α → β} {v : β} (h : r.map f = .ok v) :
    ∃ a, r = .ok a ∧ f a = v := by
  cases r with
  | ok a => cases h; exact ⟨a, rfl, rfl⟩
  | error e => cases h

theorem except_map_error {α β : Type} {r : Except ErrorKind α} {f : α → β} {e : ErrorKind}
    (h : r.map f = .error e) : r = .error e := by
  cases r with
  | ok a => cases h
  | error e => cases h; rfl

/-! ### Ranges -/

theorem frame_wellTyped (conn : Byte) (cmd : Command) : (Result.frame (encodeRequest conn cmd.code)).wellTyped := by
  refine ⟨rfl, rfl, rfl, known_code cmd, ?_⟩
  simp [encodeRequest, sealFrame, chk_cons, Config.start, Config.payloadLength, Payload.bytes, zeroPayload_eq]
  ac_rfl

theorem scaled_range (h l : Byte) (k : Nat) :
    0 ≤ (scaled h l k).mantissa ∧ (scaled h l k).mantissa ≤ 65535 ∧ (scaled h l k).exponent = k := by
  have := u16_lt h l
  simp [scaled]; omega

theorem offByte_temperature_range (b : Byte) :
    -40 ≤ offByte b Config.temperatureOffset ∧ offByte b Config.temperatureOffset ≤ 215 := by
  have := b.isLt
  simp [offByte, Config.temperatureOffset]; omega

theorem frameCount_le (cmd : Command) (n : Byte) : frameCount cmd n.toNat ≤ 85 := by
  have := n.isLt
  cases cmd <;> simp [frameCount] <;> omega

/-! ### Records -/

theorem profileSoc_wellTyped (p : Payload) : (Response.stateOfCharge (profileSoc p)).wellTyped := by
  refine ⟨scaled_range _ _ _, scaled_range _ _ _, ?_, scaled_range _ _ _⟩
  have := u16_lt p.b4 p.b5
  simp [profileSoc, offScaled, Config.currentOffset]; omega

theorem profileCvlim_wellTyped (p : Payload) : (Response.cellVoltageLimits (profileCvlim p)).wellTyped :=
  ⟨scaled_range _ _ _, scaled_range _ _ _⟩

theorem profileCtlim_wellTyped (p : Payload) : (Response.cellTemperatureLimits (profileCtlim p)).wellTyped :=
  ⟨offByte_temperature_range _, offByte_temperature_range _⟩

theorem profileMosfet_wellTyped {p : Payload} {r : MosfetStatus} (h : profileMosfet p = .ok r) :
    (Response.mosfetStatus r).wellTyped := by
  unfold profileMosfet at h
  split at h
  · cases h
  · cases h
    have := u32_lt p.b4 p.b5 p.b6 p.b7
    exact ⟨by simp, by simp; omega⟩

theorem profileFail_wellTyped (p : Payload) : (Response.failureStatus (profileFail p)).wellTyped := by
  refine ⟨by simp [profileFail], ?_⟩
  change (failWord p).toNat < _
  rw [failWord_eq_append]
  simp only [toNat_append_byte, BitVec.toNat_zero]
  have h0 := p.b0.isLt; have h1 := p.b1.isLt; have h2 := p.b2.isLt; have h3 := p.b3.isLt
  have h4 := p.b4.isLt; have h5 := p.b5.isLt; have h6 := p.b6.isLt
  omega

theorem profileCellv_wellTyped {b : Bool} {S : Bytes} {n : Nat} {l : List Fixed} (hn : n ≤ 255)
    (h : profileCellv b S n = .ok l) : (Response.cellVoltages l).wellTyped := by
  by_cases hl : 2 * n ≤ (dataBytes b S).length
  · rw [profileCellv_of_le hl] at h; cases h
    refine ⟨by simpa using hn, fun x hx => ?_⟩
    obtain ⟨i, -, rfl⟩ := List.mem_map.mp hx
    exact scaled_range _ _ _
  · rw [profileCellv_of_lt (by omega)] at h; cases h

theorem profileCellt_wellTyped {S : Bytes} {n : Nat} {l : List Int} (hn : n ≤ 255) (h : profileCellt S n = .ok l) :
    (Response.cellTemperatures l).wellTyped := by
  by_cases hl : n ≤ S.length
  · rw [profileCellt_of_le hl] at h; cases h
    refine ⟨by simpa using hn, fun x hx => ?_⟩
    obtain ⟨i, -, rfl⟩ := List.mem_map.mp hx
    exact offByte_temperature_range _
  · rw [profileCellt_of_lt (by omega)] at h; cases h

theorem profileBal_wellTyped {p : Payload} {n : Nat} {l : List Bool} (h : profileBal p n = .ok l) :
    (Response.balanceStates l).wellTyped := by
  by_cases hl : n ≤ 64
  · rw [profileBal_of_le p hl] at h; cases h
    simpa [Response.wellTyped] using hl
  · rw [profileBal_of_gt p (by omega)] at h; cases h

theorem decodePayloads_wellTyped {b : Bool} {cmd : Command} {n : Nat} {P : List Payload} {r : Response} (hn : n ≤ 255)
    (h : decodePayloads b cmd n P = .ok r) : r.wellTyped := by
  cases cmd <;> simp only [decodePayloads] at h
  case stateOfCharge => cases h; exact profileSoc_wellTyped _
  case cellVoltageLimits => cases h; exact profileCvlim_wellTyped _
  case cellTemperatureLimits => cases h; exact profileCtlim_wellTyped _
  case mosfetStatus => obtain ⟨a, ha, rfl⟩ := except_map_ok h; exact profileMosfet_wellTyped ha
  case status => cases h; trivial
  case cellVoltages =>
    split at h
    · cases h
    · obtain ⟨a, ha, rfl⟩ := except_map_ok h; exact profileCellv_wellTyped hn ha
  case temperatures =>
    split at h
    · cases h
    · obtain ⟨a, ha, rfl⟩ := except_map_ok h; exact profileCellt_wellTyped hn ha
  case balanceStates => obtain ⟨a, ha, rfl⟩ := except_map_ok h; exact profileBal_wellTyped ha
  case failures => cases h; exact profileFail_wellTyped _

theorem receive_wellTyped {b : Bool} {dev : Byte} {cmd : Command} {n : Nat} {B : Bytes} {r : Response} (hn : n ≤ 255)
    (h : receive b dev cmd n B = .ok r) : r.wellTyped := by
  rcases receive_cases b dev cmd n B with ⟨-, hr⟩ | ⟨-, ⟨e, -, hr⟩ | ⟨ds, -, ⟨-, hr⟩ | ⟨-, hr⟩⟩⟩ <;> rw [hr] at h
  · cases h
  · cases h
  · cases h
  · exact decodePayloads_wellTyped hn h

/-- The pipeline gives a Status record for the Status command only. -/
theorem receive_statusInformation {b : Bool} {dev : Byte} {cmd : Command} {n : Nat} {B : Bytes} {i : StatusInformation}
    (h : receive b dev cmd n B = .ok (.statusInformation i)) : cmd = .status := by
  rcases receive_cases b dev cmd n B with ⟨-, hr⟩ | ⟨-, ⟨e, -, hr⟩ | ⟨ds, -, ⟨-, hr⟩ | ⟨-, hr⟩⟩⟩ <;> rw [hr] at h
  · cases h
  · cases h
  · cases h
  · cases cmd <;> simp only [decodePayloads] at h
    case status => rfl
    case mosfetStatus => obtain ⟨a, -, ha⟩ := except_map_ok h; cases ha
    case balanceStates => obtain ⟨a, -, ha⟩ := except_map_ok h; cases ha
    case cellVoltages =>
      split at h
      · cases h
      · obtain ⟨a, -, ha⟩ := except_map_ok h; cases ha
    case temperatures =>
      split at h
      · cases h
      · obtain ⟨a, -, ha⟩ := except_map_ok h; cases ha
    all_goals cases h

/-- Where a payload's data region stands in a stream whose ids rise from `k` by one. -/
theorem dataRegion_in_stream (L : List Payload) : ∀ N k : Nat, L.map seqId = List.range' k N → ∀ p ∈ L, k ≤ seqId p ∧
    ((L.flatMap dataRegion).drop (7 * (seqId p - k))).take 7 = dataRegion p := by
  induction L with
  | nil => intro _ _ _ p hp; cases hp
  | cons q L ih =>
    intro N k h p hp
    cases N with
    | zero => simp at h
    | succ N =>
      rw [List.map_cons, List.range'_succ, List.cons.injEq] at h
      obtain ⟨hq, hL⟩ := h
      rcases List.mem_cons.mp hp with rfl | hp
      · exact ⟨hq.ge, by rw [hq]; simp [dataRegion]⟩
      · obtain ⟨hle, heq⟩ := ih N (k + 1) hL p hp
        refine ⟨by omega, ?_⟩
        rw [List.flatMap_cons, show 7 * (seqId p - k) = 7 + 7 * (seqId p - (k + 1)) by omega, ← List.drop_drop]
        simpa [dataRegion] using heq

/-- The pipeline on one valid frame of a single-frame command. -/
theorem receive_validFrame (b : Bool) (dev : Byte) (cmd : Command) (n : Nat) (p : Payload) (extra : Bytes)
    (h : frameCount cmd n = 1) :
    receive b dev cmd n (validFrame dev cmd.code p ++ extra) = decodePayloads b cmd n [p] := by
  simpa using receive_validFrames b dev cmd n [p] extra (by simp [h])

end Sys2Proof.Machine
end

