-- ==== Sys2Proof/Tests/Slice0.lean ====
section
/-! SUPPORT. Tests: vectors of spec/95_test_vectors.md (the id in each comment), words written out from R70 and R64, ill-formed
terms that the check refuses, and for each statement with hypotheses a state that meets them. -/

namespace Sys2Proof.Tests

open Sys2Proof.Machine

/-- The configuration of 95: `CONN_ADDR = 0x40`, `DEV_ADDR = 0x01`, `CELLV_PAD_SKIP = false`. -/
def configured : State := { State.reset with connAddr := .set 0x40#8, devAddr := .set 0x01#8 }

/-- The outcome of one instruction on the configured machine. -/
def run (i : Instr) : Option OpOutcome := outcomeOf (exec i configured)

/-- Why an answer is a refusal, if it is one. -/
def refusalOf : Answer → Option Refusal
  | .refused r => some r
  | _ => none

/-- The next state, if there is one. -/
def nextOf : Answer → Option State
  | .next t => some t
  | _ => none

def frameBytes : Option OpOutcome → Bytes
  | some (.ok (.frame f)) => f.bytes
  | _ => []

/-! ### Decoding: words from R70's table and 95 L3 -/

theorem test_decode_enc_req : decode ⟨.opsel, [0x01, 0x90]⟩ = .ok (.encReq 0x90) := rfl
theorem test_decode_dec_auth : decode ⟨.opsel, [0x04, 0xA5, 0x01]⟩ = .ok (.decAuth [0xA5, 0x01]) := rfl
theorem test_decode_u32be : decode ⟨.opsel, [0x11, 1, 2, 3, 4]⟩ = .ok (.u32be 1 2 3 4) := rfl
theorem test_decode_offscaled :
    decode ⟨.opsel, [0x13, 0x75, 0x2F, 0x75, 0x30, 1]⟩ = .ok (.offscaled 0x75 0x2F 30000 1) := rfl
theorem test_decode_framecount : decode ⟨.opsel, [0x20, 0x95, 0x04]⟩ = .ok (.framecount 0x95 4) := rfl
theorem test_decode_reasm :
    decode ⟨.opsel, [0x21, 1, 2, 3, 4, 5, 6, 7, 8, 0x02, 0x81]⟩ = .ok (.reasm [⟨1, 2, 3, 4, 5, 6, 7, 8⟩] 257) := rfl
theorem test_decode_rx_response :
    decode ⟨.opsel, [0x22, 0x90, 0x00, 0xA5, 0x01]⟩ = .ok (.rxResponse 0x90 0 [0xA5, 0x01]) := rfl
theorem test_decode_p_bal :
    decode ⟨.opsel, [0x37, 0xFF, 2, 0, 0, 0, 0, 0, 0, 10]⟩ = .ok (.pBal ⟨0xFF, 2, 0, 0, 0, 0, 0, 0⟩ 10) := rfl
theorem test_decode_p_cellv : decode ⟨.opsel, [0x35, 0x0C, 0xE4, 1]⟩ = .ok (.pCellv [0x0C, 0xE4] 1) := rfl
theorem test_decode_cmd_cell_voltages : decode ⟨.wireCmd, [0x95, 4]⟩ = .ok (.cmdCellVoltages 4) := rfl
theorem test_decode_cmd_failures : decode ⟨.wireCmd, [0x98]⟩ = .ok .cmdFailures := rfl
theorem test_decode_reserved_opsel : decode ⟨.opsel, [0x90]⟩ = .error (.reservedOpsel 0x90) := rfl
theorem test_decode_reserved_code : decode ⟨.wireCmd, [0x99]⟩ = .error (.reservedCode 0x99) := rfl
theorem test_decode_missing_operand : decode ⟨.opsel, [0x10, 1]⟩ = .error (.operands 0x10) := rfl
theorem test_table_word_p_soc : decodeTableWord 8 0x30 = some (.pSoc ⟨0, 0, 0, 0, 0, 0, 0, 0⟩) := rfl
theorem test_table_word_cmd_status : decodeTableWord 8 0x94 = some .cmdStatus := rfl

/-! ### WellFormed refuses an ill-formed term, one for each check -/

theorem test_ill_formed_enc_req : (Instr.encReq 0x99).wellFormed = false := rfl
theorem test_ill_formed_framecount : (Instr.framecount 0x8F 1).wellFormed = false := rfl
theorem test_ill_formed_rx_response : (Instr.rxResponse 0x99 0 []).wellFormed = false := rfl
theorem test_ill_formed_scaled : (Instr.scaled 0 1 5).wellFormed = false := rfl
theorem test_ill_formed_offscaled : (Instr.offscaled 0 1 30000 4).wellFormed = false := rfl
theorem test_well_formed_offscaled : (Instr.offscaled 0 1 30000 3).wellFormed = true := rfl

/-! ### Frame codec (95 L2) -/

/-- The good frame `G`. -/
def G : Bytes := [0xA5, 0x01, 0x90, 0x08, 0x01, 0x90, 0x01, 0x90, 0x75, 0x30, 0x03, 0xE8, 0xF0]

theorem test_enc_req_93 :
    frameBytes (run (.encReq 0x93)) = [0xA5, 0x40, 0x93, 0x08, 0, 0, 0, 0, 0, 0, 0, 0, 0x80] := by decide
/-- V-FC-5. -/
theorem test_enc_req_unknown : refusalOf (exec (.encReq 0x99) configured) = some (.unknownCode 0x99) := by decide
/-- V-FC-9. -/
theorem test_chksum :
    run (.chksum [0xA5, 0xFF, 0x98, 0x08, 0xFF, 0xFF, 0xFF, 0xFF, 0xFF, 0xFF, 0xFF, 0xFF]) = some (.ok (.byte 0x3C)) := by decide
/-- V-FC-10. -/
theorem test_dec_frame_good :
    run (.decFrame G) = some (.ok (.decoded ⟨0x90, 0x01, ⟨0x01, 0x90, 0x01, 0x90, 0x75, 0x30, 0x03, 0xE8⟩⟩)) := by decide
/-- V-FC-14: bad start and bad checksum. -/
theorem test_dec_frame_order :
    run (.decFrame [0x5A, 0x01, 0x90, 0x08, 0x01, 0x90, 0x01, 0x90, 0x75, 0x30, 0x03, 0xE8, 0xF0]) =
      some (.err .checksumMismatch) := by decide
/-- V-FC-22. -/
theorem test_dec_auth_address :
    run (.decAuth [0xA5, 0x02, 0x90, 0x08, 0x01, 0x90, 0x01, 0x90, 0x75, 0x30, 0x03, 0xE8, 0xF1]) =
      some (.err .headerMismatch) := by decide
/-- V-FC-25. -/
theorem test_dec_auth_unset : refusalOf (exec (.decAuth G) State.reset) = some .devAddrUnset := by decide

/-! ### Byte codec -/

/-- V-BC-1. -/
theorem test_u16be : run (.u16be 0x01 0x90) = some (.ok (.int 400)) := by decide
/-- V-BC-5. -/
theorem test_u32be : run (.u32be 0x12 0x34 0x56 0x78) = some (.ok (.int 305419896)) := by decide
/-- V-BC-8. -/
theorem test_scaled : run (.scaled 0xFF 0xFF 3) = some (.ok (.fixed ⟨65535, 3⟩)) := by decide
/-- V-BC-23. -/
theorem test_scaled_refused : refusalOf (exec (.scaled 0x00 0x01 5) configured) = some (.exponentOutsideType 5) := by decide
/-- V-BC-10. -/
theorem test_offscaled : run (.offscaled 0x75 0x2F 30000 1) = some (.ok (.fixed ⟨-1, 1⟩)) := by decide
/-- V-BC-14. -/
theorem test_offbyte : run (.offbyte 0x00 40) = some (.ok (.int (-40))) := by decide
/-- V-BC-18 and V-BC-22. -/
theorem test_bit : run (.bit 0x80 7) = some (.ok (.bool true)) := by decide
theorem test_bit_wide : run (.bit 0xFF 8) = some (.ok (.bool false)) := by decide

/-! ### Frame count and reassembly -/

/-- V-MF-6. -/
theorem test_framecount : run (.framecount 0x96 255) = some (.ok (.int 37)) := by decide
/-- V-MF-10. -/
theorem test_framecount_unknown : refusalOf (exec (.framecount 0x8F 1) configured) = some (.unknownCode 0x8F) := by decide

/-- `Pk` of L1-5. -/
def P (k x : Byte) : Payload := ⟨k, x, x, x, x, x, x, x⟩

/-- L1-5. -/
theorem test_reasm_order :
    run (.reasm [P 2 0x22, P 1 0x11, P 3 0x33] 3) =
      some (.ok (.stream (List.replicate 7 0x11 ++ List.replicate 7 0x22 ++ List.replicate 7 0x33))) := by decide
/-- V-MF-11. -/
theorem test_reasm_duplicate : run (.reasm [P 1 0x11, P 1 0x11] 2) = some (.err .incompleteFrames) := by decide

/-! ### Profiles -/

/-- V-PR-1. -/
theorem test_p_soc :
    run (.pSoc ⟨0x02, 0x0D, 0x02, 0x0C, 0x74, 0xCC, 0x02, 0x8A⟩) =
      some (.ok (.record (.stateOfCharge ⟨⟨525, 1⟩, ⟨524, 1⟩, ⟨-100, 1⟩, ⟨650, 1⟩⟩))) := by decide
/-- V-PR-2. -/
theorem test_p_cvlim :
    run (.pCvlim ⟨0x0C, 0xE4, 0x05, 0x0C, 0x80, 0x0B, 0, 0⟩) =
      some (.ok (.record (.cellVoltageLimits ⟨⟨3300, 3⟩, 5, ⟨3200, 3⟩, 11⟩))) := by decide
/-- V-PR-3. -/
theorem test_p_ctlim :
    run (.pCtlim ⟨0x41, 0x02, 0x3C, 0x04, 0, 0, 0, 0⟩) =
      some (.ok (.record (.cellTemperatureLimits ⟨25, 2, 20, 4⟩))) := by decide
/-- V-PR-4 and V-PR-5. -/
theorem test_p_mosfet :
    run (.pMosfet ⟨0x01, 0x01, 0x01, 0x2A, 0, 0, 0x27, 0x10⟩) =
      some (.ok (.record (.mosfetStatus ⟨.charging, 1, 1, 42, 10000⟩))) := by decide
theorem test_p_mosfet_enum : run (.pMosfet ⟨3, 0, 0, 0, 0, 0, 0, 0⟩) = some (.err .invalidEnumValue) := by decide
/-- V-PR-7. -/
theorem test_p_status :
    run (.pStatus ⟨0x10, 0x04, 0x01, 0, 0xA5, 0, 0, 0⟩) =
      some (.ok (.record (.statusInformation
        ⟨16, 4, true, false, true, false, true, false, false, true, false, true⟩))) := by decide
/-- V-PR-8. -/
theorem test_p_fail_word :
    (profileFail ⟨0x01, 0, 0, 0, 0, 0, 0x80, 0x07⟩).word = 0x0080000000000001 := by decide
theorem test_p_fail_flags :
    (List.range 56).filter ((profileFail ⟨0x01, 0, 0, 0, 0, 0, 0x80, 0x07⟩).flags.getD · false) = [0, 55] := by decide

/-- PROG-2 case A: the stream that both readings of C2 are given. -/
def caseA : Bytes := [0x0C, 0xE4, 0x0C, 0xE5, 0x0C, 0xE6, 0x00, 0x0C, 0xE7, 0, 0, 0, 0, 0]

/-- V-CV-3. -/
theorem test_p_cellv :
    run (.pCellv caseA 4) = some (.ok (.record (.cellVoltages [⟨3300, 3⟩, ⟨3301, 3⟩, ⟨3302, 3⟩, ⟨12, 3⟩]))) := by decide
theorem test_p_cellv_pad_skip :
    outcomeOf (exec (.pCellv caseA 4) { configured with cellvPadSkip := true }) =
      some (.ok (.record (.cellVoltages [⟨3300, 3⟩, ⟨3301, 3⟩, ⟨3302, 3⟩, ⟨3303, 3⟩]))) := by decide
/-- V-PR-14. -/
theorem test_p_cellt :
    run (.pCellt [0x41, 0x3C, 0x28, 0x00, 0xFF, 0x29, 0x2A, 0x2B, 0, 0, 0, 0, 0, 0] 8) =
      some (.ok (.record (.cellTemperatures [25, 20, 0, -40, 215, 1, 2, 3]))) := by decide
/-- V-PR-15 and V-PR-17. -/
theorem test_p_bal :
    run (.pBal ⟨0xFF, 0x02, 0, 0, 0, 0, 0, 0⟩ 10) =
      some (.ok (.record (.balanceStates [true, true, true, true, true, true, true, true, false, true]))) := by decide
theorem test_p_bal_65 : run (.pBal ⟨0, 0, 0, 0, 0, 0, 0, 0⟩ 65) = some (.err .incompleteFrames) := by decide

/-! ### Receive pipeline and wire commands -/

def T1 : Bytes := [0xA5, 0x01, 0x96, 0x08, 0x01, 0x41, 0x3C, 0x28, 0x00, 0xFF, 0x29, 0x2A, 0x3C]
def T2 : Bytes := [0xA5, 0x01, 0x96, 0x08, 0x02, 0x2B, 0x00, 0x00, 0x00, 0x00, 0x00, 0x00, 0x71]
def W0 : Bytes := [0xA5, 0x01, 0x95, 0x08, 0x01, 0x41, 0x3C, 0x28, 0x00, 0xFF, 0x29, 0x2A, 0x3B]
def X1 : Bytes := [0xA5, 0x01, 0x96, 0x08, 0x02, 0x2B, 0x00, 0x00, 0x00, 0x00, 0x00, 0x00, 0x8E]

/-- V-RX-1 with the frames swapped (PROG-4). -/
theorem test_rx_temperatures :
    run (.rxResponse 0x96 8 (T2 ++ T1)) =
      some (.ok (.record (.cellTemperatures [25, 20, 0, -40, 215, 1, 2, 3]))) := by decide
/-- V-RX-4. -/
theorem test_rx_decode_before_codes : run (.rxResponse 0x96 8 (W0 ++ X1)) = some (.err .checksumMismatch) := by decide

/-- The configured machine whose next exchange the transport and the BMS answer as `e` says. -/
def meeting (e : LinkEvent) : State := { configured with linkEvents := [e] }
/-- The configured machine with one exchange's reply. -/
def answering (reply : Bytes) : State := meeting ⟨13, reply, 0, []⟩

/-- How the exchange ended. -/
def phaseAfter (i : Instr) (s : State) : Option ExchangePhase := (nextOf (exec i s)).map State.exchange

/-- PROG-1 as one wire command. -/
theorem test_cmd_state_of_charge :
    phaseAfter .cmdStateOfCharge (answering G) =
      some (.decoded (.stateOfCharge ⟨⟨400, 1⟩, ⟨400, 1⟩, ⟨0, 1⟩, ⟨1000, 1⟩⟩)) := by decide
/-- The frame of V-PR-2's payload; checksum by hand: 0xA5+0x01+0x91+0x08 = 0x13F, + 0x18C = 0x2CB. -/
theorem test_cmd_cell_voltage_limits :
    phaseAfter .cmdCellVoltageLimits
      (answering [0xA5, 0x01, 0x91, 0x08, 0x0C, 0xE4, 0x05, 0x0C, 0x80, 0x0B, 0, 0, 0xCB]) =
      some (.decoded (.cellVoltageLimits ⟨⟨3300, 3⟩, 5, ⟨3200, 3⟩, 11⟩)) := by decide
/-- The frame of V-PR-3's payload; checksum by hand: 0x140 + 0x83 = 0x1C3. -/
theorem test_cmd_cell_temperature_limits :
    phaseAfter .cmdCellTemperatureLimits
      (answering [0xA5, 0x01, 0x92, 0x08, 0x41, 0x02, 0x3C, 0x04, 0, 0, 0, 0, 0xC3]) =
      some (.decoded (.cellTemperatureLimits ⟨25, 2, 20, 4⟩)) := by decide
/-- V-RX-11: `M3`. -/
theorem test_cmd_mosfet_status :
    phaseAfter .cmdMosfetStatus (answering [0xA5, 0x01, 0x93, 0x08, 0x03, 0, 0, 0, 0, 0, 0, 0, 0x44]) =
      some (.failed (.error .invalidEnumValue)) := by decide
/-- PROG-3: the cache after the Status exchange. -/
theorem test_cmd_status_cache :
    (nextOf (exec .cmdStatus
      (answering [0xA5, 0x01, 0x94, 0x08, 0x0A, 0x02, 0x01, 0x00, 0x0F, 0, 0, 0, 0x5E]))).map State.countCache =
      some (some ⟨0x01, 10, 2⟩) := by decide
/-- PROG-2 case B. -/
theorem test_cmd_cell_voltages :
    phaseAfter (.cmdCellVoltages 4)
      (answering [0xA5, 0x01, 0x95, 0x08, 0x01, 0x0C, 0xE4, 0x0C, 0xE5, 0x0C, 0xE6, 0x0C, 0x23,
        0xA5, 0x01, 0x95, 0x08, 0x02, 0xE7, 0, 0, 0, 0, 0, 0, 0x2C]) =
      some (.decoded (.cellVoltages [⟨3300, 3⟩, ⟨3301, 3⟩, ⟨3302, 3⟩, ⟨3303, 3⟩])) := by decide
/-- One of two frames arrives: the transport's timeout (R225 step 4). -/
theorem test_cmd_temperatures_timeout :
    phaseAfter (.cmdTemperatures 8) (answering T1) = some (.failed .timeout) := by decide
/-- PROG-3: `B`. -/
theorem test_cmd_balance_states :
    phaseAfter (.cmdBalanceStates 10) (answering [0xA5, 0x01, 0x97, 0x08, 0xFF, 0x02, 0, 0, 0, 0, 0, 0, 0x46]) =
      some (.decoded (.balanceStates [true, true, true, true, true, true, true, true, false, true])) := by decide
/-- R225 step 2: a short write fails the exchange, and 100 of 130 bytes, ten of them late, are drained (R223). -/
theorem test_cmd_failures_drain :
    (nextOf (exec .cmdFailures { configured with linkEvents := [⟨12, List.replicate 120 0x55, 0, List.replicate 10 0x66⟩] })).map
      (fun t => (t.exchange, t.linkRx.length)) = some (.failed (.error .transmitFailed), 30) := by decide

/-! ### Steps -/

/-- 95 PROG-1 from reset: two configuration writes, then ENC_REQ. -/
theorem test_program_from_reset :
    outcomesOver 3 { State.reset with pending :=
      [.cfg .connAddr 0x40, .cfg .devAddr 0x01, .present ⟨.opsel, [0x20, 0x90, 0x00]⟩] } =
      [none, none, some (.ok (.int 1))] := by decide
theorem test_step_runs_table_word :
    (nextOf (step (State.reset.withFetchWord 8 0x33))).map State.outcome =
      some (some (.ok (.record (.mosfetStatus ⟨.idle, 0, 0, 0, 0⟩)))) := by decide

/-! ### Witnesses: for each statement with hypotheses, a state and operands that meet them, clause by clause -/

/-- `s` with these actions of the host to come. -/
def presenting (s : State) (l : List HostAction) : State := { s with pending := l }

/-- A payload of one repeated byte. -/
def allBytes (x : Byte) : Payload := ⟨x, x, x, x, x, x, x, x⟩

/-- The configured machine with `buf` arriving in the next exchange. -/
theorem witness_replyWaits (buf rest : Bytes) : (answering (buf ++ rest)).replyWaits 0x40 0x01 buf rest :=
  ⟨rfl, rfl, rfl, rfl⟩

theorem witness_EncodeOfDecode : decode ⟨.wireCmd, [0x97, 0xFF]⟩ = .ok (.cmdBalanceStates 0xFF) := rfl

theorem witness_ReservedOpsel_operation : (0x38#8 : Byte) ∈ [0x01#8, 0x02#8, 0x03#8, 0x04#8, 0x10#8, 0x11#8, 0x12#8,
    0x13#8, 0x14#8, 0x15#8, 0x20#8, 0x21#8, 0x22#8, 0x30#8, 0x31#8, 0x32#8, 0x33#8, 0x34#8, 0x35#8, 0x36#8, 0x37#8,
    0x38#8] := by decide
theorem witness_ReservedOpsel_reserved : (0x39#8 : Byte) ∉ [0x01#8, 0x02#8, 0x03#8, 0x04#8, 0x10#8, 0x11#8, 0x12#8,
    0x13#8, 0x14#8, 0x15#8, 0x20#8, 0x21#8, 0x22#8, 0x30#8, 0x31#8, 0x32#8, 0x33#8, 0x34#8, 0x35#8, 0x36#8, 0x37#8,
    0x38#8] ∧ (presenting configured [.present ⟨.opsel, [0x39#8]⟩]).pending = [.present ⟨.opsel, [0x39#8]⟩] := by decide

theorem witness_StepRuns_presented :
    (presenting State.reset [.present ⟨.opsel, [0x02]⟩]).pending = [.present ⟨.opsel, [0x02]⟩] ∧
      decode ⟨.opsel, [0x02]⟩ = .ok (.chksum []) := ⟨rfl, rfl⟩
theorem witness_StepRuns_word : decodeTableWord 8 0x38 = some (.pFail (allBytes 0)) := rfl

theorem witness_ConfigurationWrite :
    (presenting State.reset [.cfg .connAddr 0xFF]).pending = [.cfg .connAddr 0xFF] ∧
      (presenting State.reset [.cfg .devAddr 0x00]).pending = [.cfg .devAddr 0x00] := ⟨rfl, rfl⟩
theorem witness_Reset :
    (presenting configured [.reset (some [0x02])]).pending = [.reset (some [0x02])] ∧
      (presenting configured [.reset none]).pending = [.reset none] := ⟨rfl, rfl⟩

theorem witness_UnsetRegister : State.reset.connAddr = .unset ∧ State.reset.devAddr = .unset ∧ known 0x90 = true ∧
    (Instr.framecount 0x98 0).isOperation = true ∧ (Instr.framecount 0x98 0).wellFormed = true := by decide
theorem witness_UnsetRegister_other : (∀ code, Instr.framecount 0x98 0 ≠ .encReq code) ∧
    (∀ F, Instr.framecount 0x98 0 ≠ .decAuth F) ∧ ∀ c n B, Instr.framecount 0x98 0 ≠ .rxResponse c n B :=
  ⟨nofun, nofun, nofun⟩
theorem witness_OperationsAnswer : configured.connAddr = .set 0x40 ∧ configured.devAddr = .set 0x01 ∧
    (Instr.scaled 0xFF 0xFF 3).isOperation = true ∧ (Instr.scaled 0xFF 0xFF 3).wellFormed = true := by decide
theorem witness_OperationsRefuse : (Instr.scaled 0xFF 0xFF 4).isOperation = true := rfl
/-- The configured machine with `DEV_ADDR` unset, in such an exchange. -/
def half (e : LinkEvent) : State := { meeting e with devAddr := .unset }
/-- The wire command's clauses: `CONN_ADDR` unset; `DEV_ADDR` unset with the response there (of one frame, and of none); and
the three ways to a next state, the last two with `DEV_ADDR` unset. -/
theorem witness_WireCommandRefuses :
    (Completes (.framecount 0x90 0) State.reset (.int (1 : Nat)) ∧ State.reset.connAddr = .unset) ∧
    (Completes (.framecount 0x90 0) (half ⟨13, G, 0, []⟩) (.int (1 : Nat)) ∧ (half ⟨13, G, 0, []⟩).connAddr = .set 0x40 ∧
      (half ⟨13, G, 0, []⟩).devAddr = .unset ∧ (half ⟨13, G, 0, []⟩).linkEvent.written = 13 ∧
      13 * 1 ≤ ((half ⟨13, G, 0, []⟩).linkRx ++ (half ⟨13, G, 0, []⟩).linkEvent.reply).length) ∧
    (Completes (.framecount 0x95 0) (half ⟨13, [], 0, []⟩) (.int (0 : Nat)) ∧
      13 * 0 ≤ ((half ⟨13, [], 0, []⟩).linkRx ++ (half ⟨13, [], 0, []⟩).linkEvent.reply).length) ∧
    (meeting ⟨13, G, 0, []⟩).devAddr = .set 0x01 ∧ (half ⟨12, [], 0, []⟩).linkEvent.written ≠ 13 ∧
    ((half ⟨13, G.take 12, 0, []⟩).linkRx ++ (half ⟨13, G.take 12, 0, []⟩).linkEvent.reply).length < 13 * 1 :=
  ⟨⟨rfl, rfl⟩, ⟨rfl, rfl, rfl, rfl, by decide⟩, ⟨rfl, by decide⟩, rfl, by decide, by decide⟩

/-- A frame with code `c` and the right checksum. -/
def frameOfCode (c : Byte) : Bytes := validFrame 0x01 c (allBytes 0)

theorem witness_UnknownCode : (¬ (0x90 ≤ (0x8F#8).toNat ∧ (0x8F#8).toNat ≤ 0x98)) ∧
    (¬ (0x90 ≤ (0x99#8).toNat ∧ (0x99#8).toNat ≤ 0x98)) ∧ (frameOfCode 0x99).length = 13 ∧
    (frameOfCode 0x99)[2]? = some 0x99 ∧ (frameOfCode 0x99)[12]? = some (byteSum ((frameOfCode 0x99).take 12)) ∧
    (presenting configured [.present ⟨.wireCmd, [0x99]⟩]).pending = [.present ⟨.wireCmd, [0x99]⟩] := by decide
theorem witness_ByteCodecIsTotal : 8 ≤ (8#8).toNat ∧ (3#8).toNat ≤ 3 ∧ 3 < (4#8).toNat := by decide

/-- `c` is a command code, as the statements spell it. -/
abbrev isCode (c : Byte) : Prop := 0x90 ≤ c.toNat ∧ c.toNat ≤ 0x98

theorem witness_EncReq : (isCode 0x90 ∧ isCode 0x98 ∧ configured.connAddr = .set 0x40) ∧
    (isCode 0x90 ∧ State.reset.connAddr = .unset) ∧ ¬ isCode 0x8F ∧ ¬ isCode 0x99 := by decide
theorem witness_DecAuthAccepts : configured.devAddr = .set 0x01 ∧ isCode 0x90 ∧ isCode 0x98 := by decide
theorem witness_DecFrameOfEncReq : configured.connAddr = .set 0x40 ∧ isCode 0x90 ∧ isCode 0x98 := by decide
theorem witness_Framecount : isCode 0x95 ∧ isCode 0x96 ∧ isCode 0x90 ∧ isCode 0x98 ∧ ¬ isCode 0x8F ∧ ¬ isCode 0x99 := by
  decide

theorem witness_DecFrameChecks_length : (G.take 12).length ≠ 13 ∧ (G ++ [0]).length ≠ 13 := by decide
theorem witness_DecFrameChecks_checksum :
    (G.set 12 0xF1).length = 13 ∧ (G.set 12 0xF1)[12]? ≠ some (byteSum ((G.set 12 0xF1).take 12)) := by decide
/-- A frame with another marker, and one with another length byte, each with the right checksum. -/
def badStart : Bytes := [0x5A, 0x01, 0x90, 0x08, 0x01, 0x90, 0x01, 0x90, 0x75, 0x30, 0x03, 0xE8, 0xA5]
def badLength : Bytes := [0xA5, 0x01, 0x90, 0x07, 0x01, 0x90, 0x01, 0x90, 0x75, 0x30, 0x03, 0xE8, 0xEF]
theorem witness_DecFrameChecks_start : badStart.length = 13 ∧ badStart[12]? = some (byteSum (badStart.take 12)) ∧
    badStart[0]? ≠ some 0xA5#8 := by decide
theorem witness_DecFrameChecks_lengthByte : badLength.length = 13 ∧
    badLength[12]? = some (byteSum (badLength.take 12)) ∧ badLength[3]? ≠ some 0x08#8 := by decide
theorem witness_DecFrameChecks_code : (frameOfCode 0x8F).length = 13 ∧
    (frameOfCode 0x8F)[12]? = some (byteSum ((frameOfCode 0x8F).take 12)) ∧
    (∀ c, (frameOfCode 0x8F)[2]? = some c → ¬ (0x90 ≤ c.toNat ∧ c.toNat ≤ 0x98)) :=
  ⟨rfl, by decide, fun c h => by cases h; decide⟩

theorem witness_DecAuth_configured : configured.devAddr = .set 0x01 ∧ State.reset.devAddr = .unset ∧
    Completes (.decFrame (frameOfCode 0x90)) configured (.decoded ⟨0x90, 0x01, allBytes 0⟩) ∧
    Completes (.decFrame (validFrame 0x02 0x90 (allBytes 0))) configured (.decoded ⟨0x90, 0x02, allBytes 0⟩) ∧
    Fails (.decFrame []) configured .lengthMismatch := ⟨rfl, rfl, rfl, rfl, rfl⟩
theorem witness_CorruptedChecksum : G.length = 13 ∧ (0xF1#8 : Byte) ≠ byteSum (G.take 12) ∧
    configured.devAddr = .set 0x01 := by decide
/-- Both registers at one value; `configured` has them at two. -/
def looped : State := { configured with devAddr := .set 0x40#8 }
theorem witness_Loopback : looped.connAddr = .set 0x40 ∧ looped.devAddr = .set 0x40 ∧
    configured.connAddr = .set 0x40 ∧ configured.devAddr = .set 0x01 ∧ (0x40#8 : Byte) ≠ 0x01#8 ∧ isCode 0x90 := by decide
theorem witness_EqualFixedValues : (1000 : Int) * 10 ^ 2 = 10000 * 10 ^ 1 := by decide
/-- For SCALED and for OFFSCALED. -/
theorem witness_Exponent : (0#8).toNat ≤ 3 ∧ (3#8).toNat ≤ 3 := by decide

theorem witness_Reasm : ([P 2 0x22, P 1 0x11].map fun p => p.b0.toNat).Perm (List.range' 1 2) ∧
    (([] : List Payload).map fun p => p.b0.toNat).Perm (List.range' 1 0) ∧
    ¬ ([P 1 0x11, P 1 0x22].map fun p => p.b0.toNat).Perm (List.range' 1 2) := by decide
theorem witness_ReasmIgnoresArrivalOrder : [P 2 0x22, P 1 0x11].Perm [P 1 0x11, P 2 0x22] := by decide

theorem witness_RxShort : configured.devAddr = .set 0x01 ∧
    Completes (.framecount 0x96 8) configured (.int (2 : Nat)) ∧ (T1 ++ T2.take 12).length < 13 * 2 :=
  ⟨rfl, rfl, by decide⟩
/-- The second chunk is rejected after an accepted first. -/
theorem witness_RxChunks_rejected : configured.devAddr = .set 0x01 ∧ Completes (.framecount 0x96 8) configured (.int (2 : Nat)) ∧
    13 * 2 ≤ (W0 ++ X1).length ∧ 1 < 2 ∧
    Fails (.decAuth (((W0 ++ X1).drop (13 * 1)).take 13)) configured .checksumMismatch ∧
    ∀ j < 1, ∃ c p, Completes (.decAuth (((W0 ++ X1).drop (13 * j)).take 13)) configured (.authenticated c p) := by
  refine ⟨rfl, rfl, by decide, by decide, rfl, fun j hj => ?_⟩
  obtain rfl : j = 0 := by omega
  exact ⟨_, _, rfl⟩
theorem witness_RxChunks_otherCode : configured.devAddr = .set 0x01 ∧
    Completes (.framecount 0x96 8) configured (.int (2 : Nat)) ∧ 13 * 2 ≤ (W0 ++ T2).length ∧
    Completes (.decAuth (((W0 ++ T2).drop (13 * 0)).take 13)) configured
      (.authenticated 0x95 ⟨0x01, 0x41, 0x3C, 0x28, 0x00, 0xFF, 0x29, 0x2A⟩) ∧ (0x95#8 : Byte) ≠ 0x96#8 ∧
    ∀ j < 2, ∃ c p, Completes (.decAuth (((W0 ++ T2).drop (13 * j)).take 13)) configured (.authenticated c p) := by
  refine ⟨rfl, rfl, by decide, rfl, by decide, fun j hj => ?_⟩
  rcases (by omega : j = 0 ∨ j = 1) with rfl | rfl <;> exact ⟨_, _, rfl⟩
theorem witness_RxIgnores : Completes (.framecount 0x96 8) configured (.int (2 : Nat)) ∧ (T1 ++ T2).length = 13 * 2 ∧
    Completes (.framecount 0x95 0) State.reset (.int (0 : Nat)) ∧ ([] : Bytes).length = 13 * 0 := ⟨rfl, rfl, rfl, rfl⟩
theorem witness_RxOfOneValidFrame : configured.devAddr = .set 0x01 ∧ (allBytes 2).b0.toNat ≤ 2 ∧ 2 < (allBytes 3).b0.toNat ∧ (64#8).toNat ≤ 64 ∧
    64 < (65#8).toNat := by decide
theorem witness_RxReassembles : configured.devAddr = .set 0x01 ∧
    ([P 2 0x22, P 1 0x11].map fun p => p.b0.toNat).Perm (List.range' 1 (((4#8).toNat + 2) / 3)) ∧
    ([P 2 0x22, P 1 0x11].map fun p => p.b0.toNat).Perm (List.range' 1 (((8#8).toNat + 6) / 7)) ∧
    (([P 2 0x22, P 2 0x11].length = ((4#8).toNat + 2) / 3) ∧
      ¬ ([P 2 0x22, P 2 0x11].map fun p => p.b0.toNat).Perm (List.range' 1 (((4#8).toNat + 2) / 3))) ∧
    ([P 2 0x22, P 2 0x11].length = ((8#8).toNat + 6) / 7) ∧
      ¬ ([P 2 0x22, P 2 0x11].map fun p => p.b0.toNat).Perm (List.range' 1 (((8#8).toNat + 6) / 7)) := by decide
theorem witness_ReassembledStream :
    Completes (.reasm [P 2 0x22, P 1 0x11] (((4#8).toNat + 2) / 3)) configured
      (.stream (List.replicate 7 0x11 ++ List.replicate 7 0x22)) ∧
    Completes (.reasm [P 2 0x22, P 1 0x11] (((8#8).toNat + 6) / 7)) configured
      (.stream (List.replicate 7 0x11 ++ List.replicate 7 0x22)) := ⟨rfl, rfl⟩
theorem witness_ErrorKinds : (Instr.pBal (allBytes 0) 65).isOperation = true ∧
    (exec (.pBal (allBytes 0) 65) configured = .next (configured.withOutcome (.err .incompleteFrames))) ∧
    (configured.withOutcome (.err .incompleteFrames)).outcome = some (.err .incompleteFrames) := ⟨rfl, rfl, rfl⟩

/-- The second reading of C2. -/
def skipping : State := { configured with cellvPadSkip := true }
/-- Of seven bytes the contiguous reading has seven data bytes and the other has six: three cells fit, four do not. -/
theorem witness_CellVoltages : configured.cellvPadSkip = false ∧ skipping.cellvPadSkip = true ∧
    (caseA.take 7).length < 2 * (4#8).toNat ∧ 2 * (3#8).toNat ≤ (caseA.take 7).length ∧
    (caseA.take 7).length - (caseA.take 7).length / 7 < 2 * (4#8).toNat ∧
    2 * (3#8).toNat ≤ (caseA.take 7).length - (caseA.take 7).length / 7 := by decide
theorem witness_CellTemperatures : caseA.length < (15#8).toNat ∧ (14#8).toNat ≤ caseA.length := by decide
theorem witness_FailureStatus : (55 : Nat) < 56 ∧ (6 : Nat) < 7 ∧ (7 : Nat) < 8 := by decide
theorem witness_UnnamedBytes_payload (x y : Byte) : (⟨1, 2, 3, 4, 5, 6, x, x⟩ : Payload).b5 =
    (⟨1, 2, 3, 4, 5, 6, y, y⟩ : Payload).b5 := rfl
theorem witness_UnnamedBytes_balance : ∀ i < (10#8).toNat,
    (0#8 ++ 0#8 ++ 0#8 ++ 0#8 ++ 0#8 ++ 0#8 ++ 0x02#8 ++ 0xFF#8 : BitVec 64).getLsbD i =
      (0xFF#8 ++ 0#8 ++ 0#8 ++ 0#8 ++ 0#8 ++ 0#8 ++ 0xFE#8 ++ 0xFF#8 : BitVec 64).getLsbD i := by decide
/-- Two streams that differ in the bytes after the cells, and in byte 6 of a region. -/
theorem witness_UnnamedBytes_stream : caseA.length = (caseA.set 13 1).length ∧
    (∀ i < (4#8).toNat, caseA[i]? = (caseA.set 13 1)[i]?) ∧ (∀ i < 2 * (4#8).toNat, caseA[i]? = (caseA.set 13 1)[i]?) ∧
    (∀ i < 2 * (4#8).toNat + 2 * (4#8).toNat / 6, i % 7 ≠ 6 → caseA[i]? = (caseA.set 6 1)[i]?) := by decide

theorem witness_SingleFrameExchange (c : Byte) :
    (answering (validFrame 0x01 c (allBytes 2) ++ [0x55])).replyWaits 0x40 0x01 (validFrame 0x01 c (allBytes 2)) [0x55] ∧
      (allBytes 2).b0.toNat ≤ 2 ∧ (64#8).toNat ≤ 64 := ⟨witness_replyWaits _ _, by decide, by decide⟩
theorem witness_MultiFrameExchange :
    ([P 2 0x22, P 1 0x11].map fun p => p.b0.toNat).Perm (List.range' 1 (((4#8).toNat + 2) / 3)) ∧
    ([P 2 0x22, P 1 0x11].map fun p => p.b0.toNat).Perm (List.range' 1 (((8#8).toNat + 6) / 7)) ∧
    (answering ([P 2 0x22, P 1 0x11].flatMap (validFrame 0x01 0x96) ++ [0x55])).replyWaits 0x40 0x01
      ([P 2 0x22, P 1 0x11].flatMap (validFrame 0x01 0x96)) [0x55] ∧
    (answering ([P 2 0x22, P 1 0x11].flatMap (validFrame 0x01 0x95) ++ [0x55])).replyWaits 0x40 0x01
      ([P 2 0x22, P 1 0x11].flatMap (validFrame 0x01 0x95)) [0x55] :=
  ⟨by decide, by decide, witness_replyWaits _ _, witness_replyWaits _ _⟩
/-- The configured machine whose next request is accepted one byte short. -/
def shortWrite : State := meeting ⟨12, [], 0, []⟩
theorem witness_FailedExchange_shortWrite : shortWrite.connAddr = .set 0x40 ∧
    Completes (.framecount Command.status.code 0) shortWrite (.int (1 : Nat)) ∧ shortWrite.linkEvent.written ≠ 13 :=
  ⟨rfl, rfl, by decide⟩
theorem witness_FailedExchange_timeout : (answering (G.take 12)).connAddr = .set 0x40 ∧
    Completes (.framecount Command.status.code 0) (answering (G.take 12)) (.int (1 : Nat)) ∧
    (answering (G.take 12)).linkEvent.written = 13 ∧
    ((answering (G.take 12)).linkRx ++ (answering (G.take 12)).linkEvent.reply).length < 13 * 1 :=
  ⟨rfl, rfl, rfl, by decide⟩
theorem witness_FailedExchange_error : (answering G).connAddr = .set 0x40 ∧
    Completes (.framecount Command.status.code 0) (answering G) (.int (1 : Nat)) ∧ (answering G).linkEvent.written = 13 ∧
    13 * 1 ≤ ((answering G).linkRx ++ (answering G).linkEvent.reply).length ∧ (answering G).devAddr = .set 0x01 ∧
    Fails (.rxResponse Command.status.code 0 (((answering G).linkRx ++ (answering G).linkEvent.reply).take (13 * 1)))
      (answering G) .incompleteFrames := ⟨rfl, rfl, rfl, by decide, rfl, rfl⟩
/-- A next state after a short write, after a timeout, after a record and after an error of RX_RESPONSE, with the count's `N`. -/
theorem witness_WireCommandFrame :
    (∃ t, exec (commandInstr .status 0) shortWrite = .next t ∧ t.outcome = some (.ok (.frame (encodeRequest 0x40 0x94)))) ∧
    (∃ t, exec (commandInstr .status 0) (answering (G.take 12)) = .next t ∧ t.outcome = some (.ok (.int 1))) ∧
    (∃ t r, exec (commandInstr .stateOfCharge 0) (answering G) = .next t ∧ t.exchange = .decoded r) ∧
    (∃ t e, exec (commandInstr .status 0) (answering G) = .next t ∧ t.exchange = .failed (.error e)) ∧
    Completes (.framecount Command.status.code 0) (answering G) (.int (1 : Nat)) ∧
    Completes (.framecount Command.stateOfCharge.code 0) (answering G) (.int (1 : Nat)) :=
  ⟨⟨_, rfl, rfl⟩, ⟨_, rfl, rfl⟩, ⟨_, _, rfl, rfl⟩, ⟨_, _, rfl, rfl⟩, rfl, rfl⟩
theorem witness_WireCommand : (answering G).connAddr = .set 0x40 ∧ (answering G).devAddr = .set 0x01 ∧
    (nextOf (exec (commandInstr .stateOfCharge 0) (answering G))).isSome = true := by decide

/-- PROG-3's Status reply, with the command presented. -/
def statusPresented : State :=
  presenting (answering [0xA5, 0x01, 0x94, 0x08, 0x0A, 0x02, 0x01, 0x00, 0x0F, 0, 0, 0, 0x5E])
    [.present ⟨.wireCmd, [0x94]⟩]
theorem witness_CountCache : ∃ t, step statusPresented = .next t ∧ t.countCache ≠ statusPresented.countCache :=
  ⟨_, rfl, by decide⟩

theorem witness_SameConfig : (Instr.encReq 0x90).isOperation = true ∧ configured.sameConfig (answering G) :=
  ⟨rfl, rfl, rfl, rfl⟩
theorem witness_OperationsChangeOnly : (Instr.encReq 0x90).isOperation = true ∧
    (nextOf (exec (.encReq 0x90) configured)).isSome = true := by decide
theorem witness_SequenceOutcomes :
    (∀ i ∈ [Instr.encReq 0x90, .decFrame [], .bit 1 0], i.isOperation = true ∧ i.wellFormed = true) ∧
    (presenting configured ([Instr.encReq 0x90, .decFrame [], .bit 1 0].map fun i => .present (encode i))).pending =
      [Instr.encReq 0x90, .decFrame [], .bit 1 0].map fun i => .present (encode i) := by decide
theorem witness_OnlyTheHost : ∃ t, step (presenting configured [.cfg .devAddr 2]) = .next t := ⟨_, rfl⟩
/-- Two valid frames from 0x01 for a multi-frame command, in arrival order 2, 1, with bytes behind them. -/
def twoFrames : Bytes := [P 2 0x22, P 1 0x11].flatMap (validFrame 0x01 0x96) ++ [0x55]
/-- For a one-frame command and for a two-frame one, with another and with the same new address. -/
theorem witness_ReplyChecked (new : Byte) : isCode 0x90 ∧ isCode 0x98 ∧ isCode 0x96 ∧
    (presenting configured [.cfg .devAddr new, .present (encode (.rxResponse 0x90 0 (frameOfCode 0x90)))]).pending =
      [.cfg .devAddr new, .present (encode (.rxResponse 0x90 0 (frameOfCode 0x90)))] ∧
    frameOfCode 0x90 = [allBytes 0].flatMap (validFrame 0x01 0x90) ++ [] ∧
    Completes (.framecount 0x90 0) configured (.int ([allBytes 0].length : Nat)) ∧
    (presenting configured [.cfg .devAddr new, .present (encode (.rxResponse 0x96 8 twoFrames))]).pending =
      [.cfg .devAddr new, .present (encode (.rxResponse 0x96 8 twoFrames))] ∧
    Completes (.framecount 0x96 8) configured (.int ([P 2 0x22, P 1 0x11].length : Nat)) ∧
    [P 2 0x22, P 1 0x11] ≠ [] ∧ (0x01#8 : Byte) ≠ 0x02#8 :=
  ⟨by decide, by decide, by decide, rfl, rfl, rfl, rfl, rfl, nofun, by decide⟩
/-- A state that meets the invariant with an outcome presented and an exchange ended, and steps on. -/
def settled : State :=
  { presenting configured [.cfg .devAddr 2] with
    outcome := some (.ok (.int 1))
    exchange := .failed .timeout }
theorem witness_StepKeeps : settled.Inv ∧ ∃ t, step settled = .next t :=
  ⟨⟨fun o h => by cases h; exact ⟨by decide, by decide⟩, trivial⟩, _, rfl⟩

end Sys2Proof.Tests
end

/-! ## Proofs: the statements about the state (10_state.md)

`exec_answersByConfig` says of the 22 operations that they answer from their operands and the configuration, with a typed
outcome and nothing else changed; `step_next_cases` says what a step does beside performing an instruction. The statements
about all steps then need what one exchange leaves (`exchangeStep_inv`, `exchangeStep_countCache_ne`). -/

namespace Sys2Proof.Machine

/-! ### Answering from the configuration alone (R20) -/

theorem sameConfig_refl (s : State) : s.sameConfig s := ⟨rfl, rfl, rfl⟩

/-- From every state with the configuration of `s`, `act` is refused for the one reason, or it presents the one outcome, of a
type and kind of the block's, and changes nothing else. -/
def AnswersByConfig (s : State) (act : State → Answer) : Prop :=
  (∃ r, ∀ t, s.sameConfig t → act t = .refused r) ∨
    ∃ o : OpOutcome, o.wellTyped ∧ ∀ t, s.sameConfig t → act t = .next { t with outcome := some o }

section
variable {s : State}

theorem AnswersByConfig.congr {act act' : State → Answer} (h : AnswersByConfig s act)
    (heq : ∀ t, s.sameConfig t → act' t = act t) : AnswersByConfig s act' := by
  rcases h with ⟨r, hr⟩ | ⟨o, ho, hn⟩
  · exact .inl ⟨r, fun t ht => (heq t ht).trans (hr t ht)⟩
  · exact .inr ⟨o, ho, fun t ht => (heq t ht).trans (hn t ht)⟩

theorem answersByConfig_done {v : Result} (hv : v.wellTyped) : AnswersByConfig s (done v) :=
  .inr ⟨.ok v, hv, fun _ _ => rfl⟩

/-- An operation ends with what a computation on the configuration gave. -/
theorem answersByConfig_finish_map {α : Type} {g : State → Except ErrorKind α} {f : α → Result}
    (hg : ∀ t, s.sameConfig t → g t = g s) (hok : ∀ a, g s = .ok a → (f a).wellTyped)
    (herr : g s ≠ .error .transmitFailed) : AnswersByConfig s fun t => finish ((g t).map f) t := by
  cases hs : g s with
  | ok a => exact .inr ⟨.ok (f a), hok a hs, fun t ht => by simp only [hg t ht, hs]; rfl⟩
  | error e =>
    have he : e ≠ .transmitFailed := by rintro rfl; exact herr hs
    exact .inr ⟨.err e, he, fun t ht => by simp only [hg t ht, hs]; rfl⟩

theorem answersByConfig_withCommand {c : Byte} {go : Command → State → Answer}
    (h : ∀ cmd, AnswersByConfig s (go cmd)) : AnswersByConfig s fun t => withCommand c fun cmd => go cmd t := by
  cases hc : commandOf c with
  | none => exact .inl ⟨_, fun t _ => withCommand_unknown (commandOf_eq_none_iff.mp hc) _⟩
  | some cmd =>
    obtain rfl := code_of_commandOf hc
    exact (h cmd).congr fun t _ => withCommand_code cmd _

theorem answersByConfig_withExponent {k : Byte} {go : Nat → State → Answer}
    (h : k.toNat ≤ 3 → AnswersByConfig s (go k.toNat)) :
    AnswersByConfig s fun t => withExponent k fun k => go k t := by
  by_cases hk : k.toNat ≤ 3
  · exact (h hk).congr fun t _ => withExponent_le hk _
  · exact .inl ⟨_, fun t _ => withExponent_gt hk _⟩

theorem answersByConfig_withConnAddr {go : Byte → State → Answer} (h : ∀ conn, AnswersByConfig s (go conn)) :
    AnswersByConfig s fun t => withConnAddr t fun conn => go conn t := by
  cases hc : s.connAddr with
  | unset => exact .inl ⟨_, fun t ht => withConnAddr_unset (ht.1.symm.trans hc) _⟩
  | set conn => exact (h conn).congr fun t ht => withConnAddr_set (ht.1.symm.trans hc) _

theorem answersByConfig_withDevAddr {go : Byte → State → Answer} (h : ∀ dev, AnswersByConfig s (go dev)) :
    AnswersByConfig s fun t => withDevAddr t fun dev => go dev t := by
  cases hd : s.devAddr with
  | unset => exact .inl ⟨_, fun t ht => withDevAddr_unset (ht.2.1.symm.trans hd) _⟩
  | set dev => exact (h dev).congr fun t ht => withDevAddr_set (ht.2.1.symm.trans hd) _

end

/-! ### Result types (R27, R70, R127) and error kinds (R200) -/

theorem known_of_decodeFrame {F : Bytes} {d : DecodedFrame} (h : decodeFrame F = .ok d) : known d.code = true :=
  (eq_validFrame_of_decodeFrame h).2

theorem decodeFrame_ne_transmitFailed (F : Bytes) : decodeFrame F ≠ .error .transmitFailed :=
  fun h => by simpa using decodeFrame_error h

theorem decodeAuth_ne_transmitFailed (dev : Byte) (F : Bytes) : decodeAuth dev F ≠ .error .transmitFailed :=
  fun h => by simpa [decodeFrame_ne_transmitFailed] using decodeAuth_error h

theorem receive_ne_transmitFailed (b : Bool) (dev : Byte) (cmd : Command) (n : Nat) (B : Bytes) :
    receive b dev cmd n B ≠ .error .transmitFailed :=
  fun h => by simpa using receive_error h

theorem int_u16_wellTyped (h l : Byte) : (Result.int (u16 h l)).wellTyped := by
  have := u16_lt h l
  simp only [Result.wellTyped]; omega

theorem int_u32_wellTyped (b0 b1 b2 b3 : Byte) : (Result.int (u32 b0 b1 b2 b3)).wellTyped := by
  have := u32_lt b0 b1 b2 b3
  simp only [Result.wellTyped]; omega

theorem int_offByte_wellTyped (raw off : Byte) : (Result.int (offByte raw off)).wellTyped := by
  have := raw.isLt; have := off.isLt
  simp only [Result.wellTyped, offByte]; omega

theorem int_frameCount_wellTyped (cmd : Command) (n : Byte) : (Result.int (frameCount cmd n.toNat)).wellTyped := by
  have := frameCount_le cmd n
  simp only [Result.wellTyped]; omega

theorem scaled_wellTyped (h l : Byte) {k : Nat} (hk : k ≤ 3) : (Result.fixed (scaled h l k)).wellTyped := by
  have := u16_lt h l
  simp only [Result.wellTyped, Fixed.inRange, scaled]; omega

theorem offScaled_wellTyped (h l : Byte) (off : BitVec 16) {k : Nat} (hk : k ≤ 3) :
    (Result.fixed (offScaled h l off k)).wellTyped := by
  have := u16_lt h l; have := off.isLt
  simp only [Result.wellTyped, Fixed.inRange, offScaled]; omega

theorem stream_wellTyped {P : List Payload} {N : Nat} {S : Bytes} (h : reassemble P N = .ok S) :
    (Result.stream S).wellTyped := by
  simp [Result.wellTyped, (reassemble_length h).1]

/-! ### The operations of the block -/

/-- Each of the 22 operations answers from its operands and the configuration, with a typed outcome (R20, R26, R127). -/
theorem exec_answersByConfig {i : Instr} (hi : i.isOperation = true) (s : State) : AnswersByConfig s (exec i) := by
  cases i
  case encReq code =>
    exact answersByConfig_withCommand fun cmd => answersByConfig_withConnAddr fun conn =>
      answersByConfig_done (frame_wellTyped conn cmd)
  case chksum B => exact answersByConfig_done trivial
  case decFrame F =>
    exact answersByConfig_finish_map (fun _ _ => rfl) (fun _ h => known_of_decodeFrame h)
      (decodeFrame_ne_transmitFailed F)
  case decAuth F =>
    exact answersByConfig_withDevAddr fun dev => answersByConfig_finish_map (fun _ _ => rfl)
      (fun _ h => known_of_decodeFrame (decodeAuth_ok_iff.mp h).1) (decodeAuth_ne_transmitFailed dev F)
  case u16be h l => exact answersByConfig_done (int_u16_wellTyped h l)
  case u32be b0 b1 b2 b3 => exact answersByConfig_done (int_u32_wellTyped b0 b1 b2 b3)
  case scaled h l k =>
    exact answersByConfig_withExponent (go := fun k => done (.fixed (scaled h l k)))
      fun hk => answersByConfig_done (scaled_wellTyped h l hk)
  case offscaled h l off k =>
    exact answersByConfig_withExponent (go := fun k => done (.fixed (offScaled h l off k)))
      fun hk => answersByConfig_done (offScaled_wellTyped h l off hk)
  case offbyte raw off => exact answersByConfig_done (int_offByte_wellTyped raw off)
  case bit v idx => exact answersByConfig_done trivial
  case framecount code n =>
    exact answersByConfig_withCommand fun cmd => answersByConfig_done (int_frameCount_wellTyped cmd n)
  case reasm P N =>
    exact answersByConfig_finish_map (fun _ _ => rfl) (fun _ h => stream_wellTyped h)
      (fun h => nomatch reassemble_error h)
  case rxResponse code n B =>
    exact answersByConfig_withCommand fun cmd => answersByConfig_withDevAddr fun dev =>
      answersByConfig_finish_map (fun t ht => by rw [ht.2.2])
        (fun _ h => receive_wellTyped (Nat.le_of_lt_succ n.isLt) h) (receive_ne_transmitFailed _ dev cmd _ B)
  case pSoc p => exact answersByConfig_done (profileSoc_wellTyped p)
  case pCvlim p => exact answersByConfig_done (profileCvlim_wellTyped p)
  case pCtlim p => exact answersByConfig_done (profileCtlim_wellTyped p)
  case pMosfet p =>
    exact answersByConfig_finish_map (fun _ _ => rfl) (fun _ h => profileMosfet_wellTyped h)
      (fun h => nomatch profileMosfet_error h)
  case pStatus p => exact answersByConfig_done trivial
  case pCellv S n =>
    exact answersByConfig_finish_map (fun t ht => by rw [ht.2.2])
      (fun _ h => profileCellv_wellTyped (Nat.le_of_lt_succ n.isLt) h) (fun h => nomatch profileCellv_error h)
  case pCellt S n =>
    exact answersByConfig_finish_map (fun _ _ => rfl)
      (fun _ h => profileCellt_wellTyped (Nat.le_of_lt_succ n.isLt) h) (fun h => nomatch profileCellt_error h)
  case pBal p n =>
    exact answersByConfig_finish_map (fun _ _ => rfl) (fun _ h => profileBal_wellTyped h)
      (fun h => nomatch profileBal_error h)
  case pFail p => exact answersByConfig_done (profileFail_wellTyped p)
  all_goals cases hi

/-- An operation that answers a next state presents a typed outcome and changes nothing else. -/
theorem exec_operation_next {i : Instr} (hi : i.isOperation = true) {s t : State} (h : exec i s = .next t) :
    ∃ o : OpOutcome, o.wellTyped ∧ t = { s with outcome := some o } := by
  rcases exec_answersByConfig hi s with ⟨r, hr⟩ | ⟨o, ho, hn⟩
  · cases h.symm.trans (hr s (sameConfig_refl s))
  · cases h.symm.trans (hn s (sameConfig_refl s))
    exact ⟨o, ho, rfl⟩

/-- Settles O55: the typed outcome of `exec_operation_next` is the only change. -/
theorem operationsChangeOnlyTheOutcome : Obligations.OperationsChangeOnlyTheOutcome := by
  intro i s t hi h
  obtain ⟨o, -, ht⟩ := exec_operation_next hi h
  exact ⟨o, ht⟩

/-- Settles O54: the answer of `s` is the one `exec_answersByConfig` gives for every state with its configuration. -/
theorem outcomeDependsOnConfigurationOnly : Obligations.OutcomeDependsOnConfigurationOnly := by
  intro i s t hi hst
  rcases exec_answersByConfig hi s with ⟨r, hr⟩ | ⟨o, -, hn⟩
  · have hs := hr s (sameConfig_refl s)
    refine ⟨fun o h => (nomatch h.symm.trans hs), fun r' h => ?_⟩
    cases h.symm.trans hs
    exact hr t hst
  · have hs := hn s (sameConfig_refl s)
    refine ⟨fun o' h => ?_, fun r h => (nomatch h.symm.trans hs)⟩
    rw [withOutcome_inj (h.symm.trans hs)]
    exact hn t hst

/-! ### Steps -/

theorem setCfg_outcome (s : State) (r : CfgIndex) (v : Byte) : (s.setCfg r v).outcome = none := by cases r <;> rfl

theorem setCfg_exchange (s : State) (r : CfgIndex) (v : Byte) : (s.setCfg r v).exchange = s.exchange := by
  cases r <;> rfl

theorem setCfg_countCache (s : State) (r : CfgIndex) (v : Byte) : (s.setCfg r v).countCache = s.countCache := by
  cases r <;> rfl

/-- A step either presents no outcome and leaves the exchange and the count cache, or performs an instruction. -/
theorem step_next_cases {s t : State} (h : step s = .next t) :
    (t.outcome = none ∧ t.exchange = s.exchange ∧ t.countCache = s.countCache) ∨
      ∃ p rest i, s.pending = .present p :: rest ∧ decode p = .ok i ∧ exec i s.popAction = .next t := by
  rcases step_cases s with ⟨-, hx⟩ | ⟨r, v, rest, -, hx⟩ | ⟨f, rest, -, hx⟩ | ⟨p, rest, e, -, -, hx⟩ |
    ⟨p, rest, i, hp, hd, hx⟩ <;> rw [hx] at h
  · cases h; exact .inl ⟨rfl, rfl, rfl⟩
  · cases h; exact .inl ⟨setCfg_outcome .., setCfg_exchange .., setCfg_countCache ..⟩
  · cases h; exact .inl ⟨rfl, rfl, rfl⟩
  · cases h
  · exact .inr ⟨p, rest, i, hp, hd, h⟩

/-! ### The invariant (R26, R222) -/

theorem inv_of_outcome_some {s : State} {o : OpOutcome} (h : s.outcome = some o) (ho : o.wellTyped)
    (he : s.exchange.ended) : s.Inv :=
  ⟨fun o' h' => by rw [h] at h'; cases h'; exact ho, he⟩

/-- However an exchange ends, it has ended, and the last operation it performed presents a typed outcome (R225; log 26). -/
theorem exchangeStep_inv {cmd : Command} {n : Byte} {s t : State} (h : exchangeStep cmd n.toNat s = .next t) : t.Inv := by
  rcases exchangeStep_cases cmd n.toNat s with
    ⟨-, hx⟩ | ⟨conn, -, ⟨-, hx⟩ | hx | ⟨-, hx⟩ | ⟨dev, -, ⟨e, hr, hx⟩ | ⟨r, hr, hx⟩⟩⟩ <;>
    cases h.symm.trans hx
  · exact inv_of_outcome_some rfl (frame_wellTyped conn cmd) trivial
  · exact inv_of_outcome_some rfl (int_frameCount_wellTyped cmd n) trivial
  · have he : e ≠ .transmitFailed := by rintro rfl; exact receive_ne_transmitFailed _ dev cmd _ _ hr
    exact inv_of_outcome_some (o := .err e) rfl he trivial
  · have hw := receive_wellTyped (Nat.le_of_lt_succ n.isLt) hr
    exact inv_of_outcome_some (o := .ok (.record r)) rfl hw hw

theorem exec_inv {i : Instr} {s t : State} (hs : s.exchange.ended) (h : exec i s = .next t) : t.Inv := by
  rcases commandInstr_or_isOperation i with ⟨cmd, n, rfl⟩ | hi
  · rw [exec_commandInstr] at h
    exact exchangeStep_inv h
  · obtain ⟨o, ho, rfl⟩ := exec_operation_next hi h
    exact inv_of_outcome_some rfl ho hs

/-- Settles O59: a step that performs no instruction presents no outcome and leaves the phase; one that does keeps the
invariant by `exec_inv`. -/
theorem stepKeepsTheInvariant : Obligations.StepKeepsTheInvariant := by
  rintro s t ⟨-, hs⟩ h
  rcases step_next_cases h with ⟨ho, he, -⟩ | ⟨p, rest, i, -, -, hx⟩
  · exact ⟨fun o h' => by simp [ho] at h', by rwa [he]⟩
  · exact exec_inv (s := s.popAction) hs hx

/-! ### Decoding: a presentation is its instruction's encoding (R70; log 4) -/

/-- The operand bytes a row of R70's table accepts are those of the instruction's encoding. -/
theorem encode_of_opselRow {op : Byte} {a : Bytes} {row : Bytes → Option Instr} {i : Instr}
    (hr : opselRow op = some row) (hi : row a = some i) : encode i = ⟨.opsel, op :: a⟩ := by
  rcases row_eq_some hr with ⟨rfl, rfl⟩ | hr
  · obtain ⟨code, rfl, rfl⟩ := operand1_eq_some hi; rfl
  rcases row_eq_some hr with ⟨rfl, rfl⟩ | hr
  · cases hi; rfl
  rcases row_eq_some hr with ⟨rfl, rfl⟩ | hr
  · cases hi; rfl
  rcases row_eq_some hr with ⟨rfl, rfl⟩ | hr
  · cases hi; rfl
  rcases row_eq_some hr with ⟨rfl, rfl⟩ | hr
  · obtain ⟨h, l, rfl, rfl⟩ := operand2_eq_some hi; rfl
  rcases row_eq_some hr with ⟨rfl, rfl⟩ | hr
  · obtain ⟨b0, b1, b2, b3, rfl, rfl⟩ := operand4_eq_some hi; rfl
  rcases row_eq_some hr with ⟨rfl, rfl⟩ | hr
  · obtain ⟨h, l, k, rfl, rfl⟩ := operand3_eq_some hi; rfl
  rcases row_eq_some hr with ⟨rfl, rfl⟩ | hr
  · obtain ⟨h, l, oh, ol, k, rfl, rfl⟩ := operand5_eq_some hi
    simp only [encode, extract_append oh ol]
  rcases row_eq_some hr with ⟨rfl, rfl⟩ | hr
  · obtain ⟨raw, off, rfl, rfl⟩ := operand2_eq_some hi; rfl
  rcases row_eq_some hr with ⟨rfl, rfl⟩ | hr
  · obtain ⟨v, idx, rfl, rfl⟩ := operand2_eq_some hi; rfl
  rcases row_eq_some hr with ⟨rfl, rfl⟩ | hr
  · obtain ⟨code, n, rfl, rfl⟩ := operand2_eq_some hi; rfl
  rcases row_eq_some hr with ⟨rfl, rfl⟩ | hr
  · obtain ⟨P, N, rfl, rfl⟩ := operandPayloadsThenCount_eq_some hi; rfl
  rcases row_eq_some hr with ⟨rfl, rfl⟩ | hr
  · obtain ⟨code, n, B, rfl, rfl⟩ := operand2ThenBytes_eq_some hi; rfl
  rcases row_eq_some hr with ⟨rfl, rfl⟩ | hr
  · obtain ⟨p, rfl, rfl⟩ := operandPayload_eq_some hi; rfl
  rcases row_eq_some hr with ⟨rfl, rfl⟩ | hr
  · obtain ⟨p, rfl, rfl⟩ := operandPayload_eq_some hi; rfl
  rcases row_eq_some hr with ⟨rfl, rfl⟩ | hr
  · obtain ⟨p, rfl, rfl⟩ := operandPayload_eq_some hi; rfl
  rcases row_eq_some hr with ⟨rfl, rfl⟩ | hr
  · obtain ⟨p, rfl, rfl⟩ := operandPayload_eq_some hi; rfl
  rcases row_eq_some hr with ⟨rfl, rfl⟩ | hr
  · obtain ⟨p, rfl, rfl⟩ := operandPayload_eq_some hi; rfl
  rcases row_eq_some hr with ⟨rfl, rfl⟩ | hr
  · obtain ⟨S, n, rfl, rfl⟩ := operandBytesThenByte_eq_some hi; rfl
  rcases row_eq_some hr with ⟨rfl, rfl⟩ | hr
  · obtain ⟨S, n, rfl, rfl⟩ := operandBytesThenByte_eq_some hi; rfl
  rcases row_eq_some hr with ⟨rfl, rfl⟩ | hr
  · obtain ⟨p, n, rfl, rfl⟩ := operandPayloadThenByte_eq_some hi; rfl
  rcases row_eq_some hr with ⟨rfl, rfl⟩ | hr
  · obtain ⟨p, rfl, rfl⟩ := operandPayload_eq_some hi; rfl
  · cases hr

theorem encode_of_commandRow {cmd : Command} {a : Bytes} {i : Instr} (h : commandRow cmd a = some i) :
    encode i = ⟨.wireCmd, cmd.code :: a⟩ := by
  cases cmd
  case cellVoltages | temperatures | balanceStates => obtain ⟨n, rfl, rfl⟩ := operand1_eq_some h; rfl
  all_goals obtain ⟨rfl, rfl⟩ := operand0_eq_some h; rfl

theorem encode_of_decode {p : Presentation} {i : Instr} (h : decode p = .ok i) : encode i = p := by
  obtain ⟨f, b⟩ := p
  unfold decode at h
  split at h
  case h_1 => cases h
  case h_2 op a hf hb =>
    cases hr : opselRow op with
    | none => simp [hr] at h
    | some row =>
      cases hi : row a with
      | none => simp [hr, hi] at h
      | some j =>
        simp only [hr, hi, Except.ok.injEq] at h
        subst hf hb h
        exact encode_of_opselRow hr hi
  case h_3 c a hf hb =>
    cases hc : commandOf c with
    | none => simp [hc] at h
    | some cmd =>
      cases hi : commandRow cmd a with
      | none => simp [hc, hi] at h
      | some j =>
        simp only [hc, hi, Except.ok.injEq] at h
        subst hf hb h
        rw [encode_of_commandRow hi, code_of_commandOf hc]

/-! ### The count cache (R29) -/

/-- A cache filled for the device now configured gives the counts of the three commands that take one (R226; log 20). -/
theorem cachedCount_of_countCache {s : State} {dev cells sensors : Byte} (hd : s.devAddr = .set dev)
    (hc : s.countCache = some ⟨dev, cells, sensors⟩) :
    s.cachedCount .cellVoltages = some cells ∧ s.cachedCount .balanceStates = some cells ∧
      s.cachedCount .temperatures = some sensors := by
  simp [State.cachedCount, hc, hd]

/-- `t` follows `s` by an exchange with the device configured that ended in a Status record, whose counts the cache holds. -/
def State.FilledFrom (s t : State) : Prop :=
  ∃ i dev, s.devAddr = .set dev ∧ t.devAddr = .set dev ∧ t.exchange = .decoded (.statusInformation i) ∧
    t.countCache = some ⟨dev, i.cellCount, i.temperatureSensorCount⟩

theorem exchangeStep_countCache_ne {cmd : Command} {n : Nat} {s t : State} (h : exchangeStep cmd n s = .next t)
    (hne : t.countCache ≠ s.countCache) : cmd = .status ∧ s.FilledFrom t := by
  obtain ⟨-, hdev, -, -, -, -, -, ⟨f, -, hc⟩ | ⟨conn, dev, r, -, hd, hr, rfl⟩⟩ := exchangeStep_next h
  · exact absurd hc hne
  · rcases completeExchange_countCache (afterRead s conn cmd n) dev r with hc | ⟨i, rfl, hc⟩
    · exact absurd hc hne
    · exact ⟨receive_statusInformation hr, i, dev, hd, hdev.trans hd, rfl, hc⟩

theorem exec_countCache_ne {i : Instr} {s t : State} (h : exec i s = .next t) (hne : t.countCache ≠ s.countCache) :
    i = .cmdStatus ∧ s.FilledFrom t := by
  rcases commandInstr_or_isOperation i with ⟨cmd, n, rfl⟩ | hi
  · rw [exec_commandInstr] at h
    obtain ⟨rfl, hx⟩ := exchangeStep_countCache_ne h hne
    exact ⟨rfl, hx⟩
  · obtain ⟨o, -, rfl⟩ := exec_operation_next hi h
    exact absurd rfl hne

/-- Settles O53: only an instruction can change the cache, it is the Status command (`exec_countCache_ne`), and what was
presented is its encoding. -/
theorem onlyAStatusExchangeFillsTheCache : Obligations.OnlyAStatusExchangeFillsTheCache := by
  intro s t h hne
  rcases step_next_cases h with ⟨-, -, hc⟩ | ⟨p, rest, i, hp, hdec, hx⟩
  · exact absurd hc hne
  · obtain ⟨rfl, j, dev, hd, hd', he, hc⟩ := exec_countCache_ne hx hne
    rw [← encode_of_decode hdec] at hp
    exact ⟨rest, j, dev, hp, hd, he, hc, cachedCount_of_countCache hd' hc⟩

/-! ### Configuration writes (R21, R22, R213) -/

theorem popAction_eq {s : State} {a : HostAction} {rest : List HostAction} (h : s.pending = a :: rest) :
    s.popAction = { s with pending := rest } := by
  simp [State.popAction, h]

/-- Settles O7, by the register written. -/
theorem configurationWriteSetsOnlyItsRegister : Obligations.ConfigurationWriteSetsOnlyItsRegister := by
  intro s r v rest h
  have hstep : step s = .next (s.popAction.setCfg r v) := by simp [step, h]
  rw [hstep, popAction_eq h]
  cases r with
  | connAddr => rfl
  | devAddr => rfl

end Sys2Proof.Machine

/-! ## Proofs: sequences of presentations (20_memory.md)

`step_present` says what a step does with a presentation, and `decode_encode` that an instruction's encoding presents it.
`refusalGround_of_exec_refused` names the grounds on which an operation is refused; with both registers set and typed
operands there is none, so each operation of a sequence answers the outcome its configuration gives (`exec_configured`), and
the induction over the sequence only needs that a step leaves the configuration (`step_operation`). -/

namespace Sys2Proof.Machine

/-! ### Performing what is presented (R25, R47) -/

theorem step_present {s : State} {p : Presentation} {rest : List HostAction} {i : Instr}
    (hp : s.pending = .present p :: rest) (hd : decode p = .ok i) : step s = exec i { s with pending := rest } := by
  rw [← popAction_eq hp]
  simp [step, hp, hd]

theorem decode_of_decodeTableWord {nbits w : Nat} {i : Instr} (h : decodeTableWord nbits w = some i) :
    decode (tablePresentation nbits w) = .ok i := by
  unfold decodeTableWord at h
  split at h
  · rename_i j hj
    rw [hj, Option.some.inj h]
  · cases h

/-- Settles O6: both clauses by `step_present`; taking the action that `withFetchWord` put first gives the state back. -/
theorem stepRunsThePresentedInstruction : Obligations.StepRunsThePresentedInstruction :=
  ⟨fun _ _ _ _ hp hd => step_present hp hd,
    fun s nbits w _ h => step_present (s := s.withFetchWord nbits w) rfl (decode_of_decodeTableWord h)⟩

/-- The decoder reads every instruction, with all its operands, back from its encoding (R70; log 4). -/
theorem decode_encode (i : Instr) : decode (encode i) = .ok i := by
  cases i
  case offscaled h l off k =>
    change Except.ok (Instr.offscaled h l (off.extractLsb' 8 8 ++ off.extractLsb' 0 8) k) = _
    rw [append_extract]
  case reasm P N => simp [encode, decode, opselRow, operandPayloadsThenCount_append]
  case pCellv S n => simp [encode, decode, opselRow, operandBytesThenByte_append]
  case pCellt S n => simp [encode, decode, opselRow, operandBytesThenByte_append]
  all_goals rfl

/-! ### The grounds of a refusal (R203) -/

/-- R203's grounds on which an operation is refused: an operand outside its type, or an unset register that it reads. -/
def RefusalGround (i : Instr) (s : State) : Prop :=
  i.wellFormed = false ∨ ((∃ code, i = .encReq code) ∧ s.connAddr = .unset) ∨
    (((∃ F, i = .decAuth F) ∨ ∃ code n RXB, i = .rxResponse code n RXB) ∧ s.devAddr = .unset)

theorem not_refusalGround {i : Instr} {s : State} {conn dev : Byte} (hw : i.wellFormed = true)
    (hc : s.connAddr = .set conn) (hd : s.devAddr = .set dev) : ¬ RefusalGround i s := by
  simp [RefusalGround, hw, hc, hd]

section
variable {s : State} {r : Refusal}

theorem done_ne_refused {v : Result} : done v s ≠ .refused r := nofun

theorem finish_ne_refused {c : Except ErrorKind Result} : finish c s ≠ .refused r := by
  obtain ⟨o, ho, -⟩ := finish_eq_next c s
  rw [ho]
  nofun

theorem withCommand_refused {c : Byte} {go : Command → Answer} (h : withCommand c go = .refused r) :
    known c = false ∨ ∃ cmd, go cmd = .refused r := by
  rcases withCommand_cases c go with ⟨hk, -⟩ | ⟨cmd, -, hx⟩
  · exact .inl hk
  · exact .inr ⟨cmd, hx ▸ h⟩

theorem withConnAddr_refused {go : Byte → Answer} (h : withConnAddr s go = .refused r) :
    s.connAddr = .unset ∨ ∃ conn, go conn = .refused r := by
  rcases withConnAddr_cases s go with ⟨hc, -⟩ | ⟨conn, -, hx⟩
  · exact .inl hc
  · exact .inr ⟨conn, hx ▸ h⟩

theorem withDevAddr_refused {go : Byte → Answer} (h : withDevAddr s go = .refused r) :
    s.devAddr = .unset ∨ ∃ dev, go dev = .refused r := by
  rcases withDevAddr_cases s go with ⟨hd, -⟩ | ⟨dev, -, hx⟩
  · exact .inl hd
  · exact .inr ⟨dev, hx ▸ h⟩

/-- An operation is refused on R203's grounds only. -/
theorem refusalGround_of_exec_refused {i : Instr} (hi : i.isOperation = true) (h : exec i s = .refused r) :
    RefusalGround i s := by
  cases i
  case encReq code =>
    rcases withCommand_refused h with hk | ⟨cmd, h⟩
    · exact .inl hk
    rcases withConnAddr_refused h with hc | ⟨conn, h⟩
    · exact .inr (.inl ⟨⟨code, rfl⟩, hc⟩)
    · cases done_ne_refused h
  case decAuth F =>
    rcases withDevAddr_refused h with hd | ⟨dev, h⟩
    · exact .inr (.inr ⟨.inl ⟨F, rfl⟩, hd⟩)
    · cases finish_ne_refused h
  case scaled a b k => exact .inl (decide_eq_false fun hk => nomatch (exec_scaled a b hk s).symm.trans h)
  case offscaled a b off k =>
    exact .inl (decide_eq_false fun hk => nomatch (exec_offscaled a b off hk s).symm.trans h)
  case framecount code n =>
    rcases withCommand_refused h with hk | ⟨cmd, h⟩
    · exact .inl hk
    · cases done_ne_refused h
  case rxResponse code n B =>
    rcases withCommand_refused h with hk | ⟨cmd, h⟩
    · exact .inl hk
    rcases withDevAddr_refused h with hd | ⟨dev, h⟩
    · exact .inr (.inr ⟨.inr ⟨code, n, B, rfl⟩, hd⟩)
    · cases finish_ne_refused h
  case decFrame | reasm | pMosfet | pCellv | pCellt | pBal => cases finish_ne_refused h
  case chksum | u16be | u32be | offbyte | bit | pSoc | pCvlim | pCtlim | pStatus | pFail => cases done_ne_refused h
  all_goals cases hi

end

/-! ### Sequences of operations (R20, R47) -/

theorem outcomesOver_succ {s t : State} (h : step s = .next t) (k : Nat) :
    outcomesOver (k + 1) s = t.outcome :: outcomesOver k t := by
  simp [outcomesOver, h]

section
variable {s : State} {conn dev : Byte} (hc : s.connAddr = .set conn) (hd : s.devAddr = .set dev)
include hc hd

/-- With both registers set, an operation on operands of its types presents one outcome from every state with the same
configuration, and changes nothing else. -/
theorem exec_configured {i : Instr} (hi : i.isOperation = true) (hw : i.wellFormed = true) :
    ∃ o, ∀ t, s.sameConfig t → exec i t = .next { t with outcome := some o } := by
  rcases exec_answersByConfig hi s with ⟨r, hr⟩ | ⟨o, -, hn⟩
  · exact absurd (refusalGround_of_exec_refused hi (hr s (sameConfig_refl s))) (not_refusalGround hw hc hd)
  · exact ⟨o, hn⟩

/-- A step on the next operation presents the outcome it has from `s`, moves the sequence on and leaves the configuration. -/
theorem step_operation {i : Instr} (hi : i.isOperation = true) (hw : i.wellFormed = true) {t : State}
    (ht : s.sameConfig t) {rest : List HostAction} (hp : t.pending = .present (encode i) :: rest) :
    ∃ u, step t = .next u ∧ u.outcome = outcomeOf (exec i s) ∧ s.sameConfig u ∧ u.pending = rest := by
  obtain ⟨o, hx⟩ := exec_configured hc hd hi hw
  refine ⟨_, (step_present hp (decode_encode i)).trans (hx _ ht), ?_, ht, rfl⟩
  rw [hx s (sameConfig_refl s)]
  rfl

/-- The sequence presented from any state `t` with the configuration of `s` has the outcomes its operations have from `s`. -/
theorem outcomesOver_operations (ops : List Instr) (hops : ∀ i ∈ ops, i.isOperation = true ∧ i.wellFormed = true) :
    ∀ t, s.sameConfig t → t.pending = ops.map (fun i => .present (encode i)) →
      outcomesOver ops.length t = ops.map fun i => outcomeOf (exec i s) := by
  induction ops with
  | nil => intro _ _ _; rfl
  | cons i ops ih =>
    intro t ht hp
    obtain ⟨⟨hi, hw⟩, hops⟩ := List.forall_mem_cons.mp hops
    obtain ⟨u, hu, ho, hsu, hpu⟩ := step_operation hc hd hi hw ht hp
    rw [List.length_cons, outcomesOver_succ hu, ho, ih hops u hsu hpu, List.map_cons]

end

/-- Settles O56: `outcomesOver_operations` from the state itself. -/
theorem sequenceOutcomesAreComputedAlone : Obligations.SequenceOutcomesAreComputedAlone := by
  intro s ops conn dev hc hd hops hp
  exact outcomesOver_operations hc hd ops hops s (sameConfig_refl s) hp

end Sys2Proof.Machine

/-! ## Proofs: the statements about the encoding (30_encoding.md)

Decoder and encoder are inverse by `decode_encode` and `encode_of_decode`, proved above where sequences and steps need them.
What is left is where the decoder refuses: outside R70's table (`opselRow_of_not_mem`) and outside `KNOWN` (`known_iff_range`),
and a step on a presentation that is no instruction is refused by the decoder's reason (`step_present_error`). -/

namespace Sys2Proof.Machine

/-! ### Encodings (R70, R71; log 4) -/

/-- Settles O1 by `decode_encode`, one case per row of the opcode table. -/
theorem decodeOfEncodeIsTheInstruction : Obligations.DecodeOfEncodeIsTheInstruction := decode_encode

/-- Settles O2 by `encode_of_decode`, along the rows the decoder tries. -/
theorem encodeOfDecodeIsThePresentation : Obligations.EncodeOfDecodeIsThePresentation := fun _ _ => encode_of_decode

/-- Settles O3, by running the decoder on each word. -/
theorem specWordsDecode : Obligations.SpecWordsDecode := ⟨rfl, rfl, rfl, fun _ => rfl, rfl, rfl, rfl, rfl⟩

/-! ### Known codes (R65) -/

theorem code_range (cmd : Command) : 0x90 ≤ cmd.code.toNat ∧ cmd.code.toNat ≤ 0x98 := by cases cmd <;> decide

/-- The nine codes are consecutive, so a byte between the first and the last is the code of a command. -/
theorem exists_code_of_range {c : Byte} (h : 0x90 ≤ c.toNat ∧ c.toNat ≤ 0x98) : ∃ cmd : Command, cmd.code = c := by
  have hc : c = 0x90#8 ∨ c = 0x91#8 ∨ c = 0x92#8 ∨ c = 0x93#8 ∨ c = 0x94#8 ∨ c = 0x95#8 ∨ c = 0x96#8 ∨ c = 0x97#8 ∨
      c = 0x98#8 := by bv_omega
  rcases hc with rfl | rfl | rfl | rfl | rfl | rfl | rfl | rfl | rfl
  · exact ⟨.stateOfCharge, rfl⟩
  · exact ⟨.cellVoltageLimits, rfl⟩
  · exact ⟨.cellTemperatureLimits, rfl⟩
  · exact ⟨.mosfetStatus, rfl⟩
  · exact ⟨.status, rfl⟩
  · exact ⟨.cellVoltages, rfl⟩
  · exact ⟨.temperatures, rfl⟩
  · exact ⟨.balanceStates, rfl⟩
  · exact ⟨.failures, rfl⟩

theorem known_iff_range {c : Byte} : known c = true ↔ 0x90 ≤ c.toNat ∧ c.toNat ≤ 0x98 := by
  rw [known_iff_exists]
  constructor
  · rintro ⟨cmd, rfl⟩
    exact code_range cmd
  · exact exists_code_of_range

theorem known_eq_false_of_not_range {c : Byte} (h : ¬ (0x90 ≤ c.toNat ∧ c.toNat ≤ 0x98)) : known c = false :=
  Bool.eq_false_iff.mpr fun hk => h (known_iff_range.mp hk)

/-- Settles O5 by `known_iff_range`, in every byte. -/
theorem knownCodesAreTheNine : Obligations.KnownCodesAreTheNine := fun _ => known_iff_range

/-! ### Selectors (R70, R72, R73) -/

/-- The OPSEL values of R70's table. -/
def opselValues : Bytes :=
  [0x01#8, 0x02#8, 0x03#8, 0x04#8, 0x10#8, 0x11#8, 0x12#8, 0x13#8, 0x14#8, 0x15#8, 0x20#8, 0x21#8, 0x22#8,
    0x30#8, 0x31#8, 0x32#8, 0x33#8, 0x34#8, 0x35#8, 0x36#8, 0x37#8, 0x38#8]

theorem opselRow_of_not_mem {op : Byte} (h : op ∉ opselValues) : opselRow op = none := by
  simp only [opselValues, List.mem_cons, List.not_mem_nil, or_false, not_or] at h
  simp [opselRow, h]

/-- The shortest presentation with an OPSEL value of R70's table, with zero operands, is an instruction. -/
theorem decode_opselValues_isOk :
    ∀ op ∈ opselValues, (decode ⟨.opsel, op :: List.replicate (shortestOperands .opsel op) 0#8⟩).isOk = true := by
  decide

theorem exists_of_isOk {ε α : Type} {x : Except ε α} (h : x.isOk = true) : ∃ a, x = .ok a := by
  cases x with
  | error e => cases h
  | ok a => exact ⟨a, rfl⟩

theorem decode_reservedOpsel {op : Byte} (h : op ∉ opselValues) (a : Bytes) :
    decode ⟨.opsel, op :: a⟩ = .error (.reservedOpsel op) := by
  simp [decode, opselRow_of_not_mem h]

theorem decode_reservedCode {c : Byte} (h : known c = false) (a : Bytes) :
    decode ⟨.wireCmd, c :: a⟩ = .error (.reservedCode c) := by
  simp [decode, commandOf_eq_none_iff.mpr h]

theorem step_present_error {s : State} {p : Presentation} {rest : List HostAction} {e : DecodeError}
    (hp : s.pending = .present p :: rest) (hd : decode p = .error e) : step s = .refused (.undecoded e) := by
  simp [step, hp, hd]

/-- Settles O4: a value of the table with zero operands is an operation; outside it the decoder names the value. -/
theorem reservedOpselIsRefused : Obligations.ReservedOpselIsRefused := by
  intro op
  constructor
  · intro hop
    exact ⟨_, exists_of_isOk (decode_opselValues_isOk op hop)⟩
  · intro hop a s rest hp
    exact step_present_error hp (decode_reservedOpsel hop a)

/-- Settles O12: each of the three operations checks its code first, DEC_FRAME checks it in a frame's header, and the decoder
checks a wire command's selector. -/
theorem unknownCodeIsRefusedOrAHeaderMismatch : Obligations.UnknownCodeIsRefusedOrAHeaderMismatch := by
  intro s c hc
  have hk := known_eq_false_of_not_range hc
  refine ⟨withCommand_unknown hk _, fun _ => withCommand_unknown hk _, fun _ _ => withCommand_unknown hk _, ?_, ?_⟩
  · intro F hl h2 hx
    have hheader : ∀ c', F[2]? = some c' → known c' = false := fun c' h => by rwa [← Option.some.inj (h2.symm.trans h)]
    exact decFrame_fails_iff.mpr (decodeFrame_of_header hl hx (.inr (.inr hheader)))
  · intro a rest hp
    exact step_present_error hp (decode_reservedCode hk a)

end Sys2Proof.Machine

/-! ## Proofs: the statements about the frame codec (41_frame_codec.md)

DEC_FRAME and DEC_AUTH end as their computations do (`decFrame_completes_iff` and the lemmas beside it), so these statements
are about `decodeFrame` and `decodeAuth`: which frames `decodeFrame` accepts (`decodeFrame_ok_iff`), and that `decodeAuth`
passes its errors on and then compares the address. A request is the valid frame `requestFrame`, which ties ENC_REQ to them. -/

namespace Sys2Proof.Machine

/-! ### Requests (R100) -/

/-- The fixed bytes of a request, its marker and its length byte, contribute `0xAD` to its checksum. -/
theorem requestFrame_eq (conn code : Byte) : requestFrame conn code =
    [0xA5#8, conn, code, 0x08#8, 0#8, 0#8, 0#8, 0#8, 0#8, 0#8, 0#8, 0#8, 0xAD#8 + conn + code] := by
  have hsum : 0xA5#8 + conn + code + 0x08#8 = 0xAD#8 + conn + code := by bv_omega
  simp [requestFrame, validFrame, byteSum, hsum]

/-- ENC_REQ of a known code completes with the request frame. -/
theorem encReq_completes {s : State} {conn code : Byte} (hc : s.connAddr = .set conn)
    (hk : 0x90 ≤ code.toNat ∧ code.toNat ≤ 0x98) :
    ∃ f : Frame, Completes (.encReq code) s (.frame f) ∧ f.bytes = requestFrame conn code := by
  obtain ⟨cmd, rfl⟩ := exists_code_of_range hk
  exact ⟨_, exec_encReq cmd hc, encodeRequest_bytes conn cmd.code⟩

/-- Settles O14: ENC_REQ checks its code, then reads `CONN_ADDR`; the bytes are `requestFrame_eq`. -/
theorem encReqBuildsTheRequestFrame : Obligations.EncReqBuildsTheRequestFrame := by
  intro s code
  refine ⟨fun hlo hhi => ⟨fun conn hc => ?_, fun hu => ?_⟩, fun hk => ?_⟩
  · rw [← requestFrame_eq]
    exact encReq_completes hc ⟨hlo, hhi⟩
  · obtain ⟨cmd, rfl⟩ := exists_code_of_range ⟨hlo, hhi⟩
    exact exec_encReq_unset cmd hu
  · exact withCommand_unknown (known_eq_false_of_not_range hk) _

/-! ### CHKSUM (R63, R101) -/

/-- Settles O15: CHKSUM presents `chk`, the sum reduced to 8 bits, which is the 8-bit sum by `chk_eq_byteSum`. -/
theorem chksumIsTheWraparoundSum : Obligations.ChksumIsTheWraparoundSum :=
  fun s B => ⟨chk B, done_eq (.byte (chk B)) s, chk_eq_byteSum B, BitVec.toNat_ofNat _ 8⟩

/-! ### DEC_FRAME (R102, R204) -/

/-- DEC_FRAME's computation accepts exactly the valid frames of a known code. -/
theorem decodeFrame_ok_iff {F : Bytes} {d : DecodedFrame} :
    decodeFrame F = .ok d ↔ F = validFrame d.addr d.code d.payload ∧ known d.code = true := by
  constructor
  · exact eq_validFrame_of_decodeFrame
  · rintro ⟨rfl, hk⟩
    exact decodeFrame_validFrame hk d.addr d.payload

/-- Settles O16: acceptance by `decodeFrame_ok_iff`, and each failing check by its lemma. -/
theorem decFrameChecksInOrder : Obligations.DecFrameChecksInOrder := by
  intro s F
  refine ⟨fun d => ?_, fun hl => ?_, fun hl hx => ?_, fun hl hx hh => ?_⟩
  · rw [decFrame_completes_iff, decodeFrame_ok_iff, known_iff_range]
  · exact decFrame_fails_iff.mpr (decodeFrame_of_length_ne hl)
  · exact decFrame_fails_iff.mpr (decodeFrame_of_checksum hl hx)
  · have hheader : F[0]? ≠ some 0xA5#8 ∨ F[3]? ≠ some 0x08#8 ∨ ∀ c, F[2]? = some c → known c = false :=
      hh.imp_right (Or.imp_right fun hc c h => known_eq_false_of_not_range (hc c h))
    exact decFrame_fails_iff.mpr (decodeFrame_of_header hl hx hheader)

/-! ### DEC_AUTH (R103) -/

theorem decodeAuth_of_decodeFrame_error {F : Bytes} {e : ErrorKind} (h : decodeFrame F = .error e) (dev : Byte) :
    decodeAuth dev F = .error e := by
  simp [decodeAuth, h]

theorem decodeAuth_of_addr_ne {dev : Byte} {F : Bytes} {d : DecodedFrame} (h : decodeFrame F = .ok d)
    (ha : d.addr ≠ dev) : decodeAuth dev F = .error .headerMismatch := by
  simp [decodeAuth, h, ha]

/-- Settles O17, by what DEC_FRAME's computation gives. -/
theorem decAuthChecksTheAddressLast : Obligations.DecAuthChecksTheAddressLast := by
  intro s F
  refine ⟨fun hu => withDevAddr_unset hu _, fun dev hd => ?_⟩
  cases h : decodeFrame F with
  | ok d =>
    refine .inl ⟨d, decFrame_completes_iff.mpr h, fun ha => ?_, fun ha => ?_⟩
    · subst ha
      exact (decAuth_completes_iff hd).mpr (decodeAuth_ok_iff.mpr ⟨h, rfl⟩)
    · exact (decAuth_fails_iff hd).mpr (decodeAuth_of_addr_ne h ha)
  | error e =>
    exact .inr ⟨e, decFrame_fails_iff.mpr h, (decAuth_fails_iff hd).mpr (decodeAuth_of_decodeFrame_error h dev)⟩

/-- Settles O18: a valid frame of a known code decodes to its fields, and its address is `DEV_ADDR`. -/
theorem decAuthAcceptsTheConfiguredDevice : Obligations.DecAuthAcceptsTheConfiguredDevice := by
  intro s dev code p hd hlo hhi
  exact (decAuth_completes_iff hd).mpr (decodeAuth_validFrame (known_iff_range.mpr ⟨hlo, hhi⟩) dev p)

/-! ### Round trip, corruption and loopback (R104 to R106) -/

theorem decodeFrame_requestFrame {code : Byte} (hk : known code = true) (conn : Byte) :
    decodeFrame (requestFrame conn code) = .ok ⟨code, conn, ⟨0#8, 0#8, 0#8, 0#8, 0#8, 0#8, 0#8, 0#8⟩⟩ :=
  decodeFrame_validFrame hk conn _

/-- Settles O19: a request is a valid frame with a payload of zeros. -/
theorem decFrameOfEncReq : Obligations.DecFrameOfEncReq := by
  intro s conn code hc hlo hhi
  obtain ⟨f, hf, hb⟩ := encReq_completes hc ⟨hlo, hhi⟩
  refine ⟨f, hf, decFrame_completes_iff.mpr ?_⟩
  rw [hb, decodeFrame_requestFrame (known_iff_range.mpr ⟨hlo, hhi⟩)]

/-- Replacing the last byte leaves the bytes summed, so any byte but their sum fails DEC_FRAME's second check. -/
theorem decodeFrame_set_checksum {F : Bytes} {x : Byte} (hl : F.length = 13) (hx : x ≠ byteSum (F.take 12)) :
    decodeFrame (F.set 12 x) = .error .checksumMismatch := by
  have hlast : (F.set 12 x)[12]? = some x := List.getElem?_set_self (by omega)
  have htake : (F.set 12 x).take 12 = F.take 12 := List.take_set_of_le (Nat.le_refl 12)
  apply decodeFrame_of_checksum
  · rw [List.length_set, hl]
  · rw [hlast, htake]
    exact fun h => hx (Option.some.inj h)

/-- Settles O20: DEC_FRAME's computation fails, and DEC_AUTH's passes the error on. -/
theorem corruptedChecksumIsNeverAccepted : Obligations.CorruptedChecksumIsNeverAccepted := by
  intro s F x hl hx
  have h := decodeFrame_set_checksum hl hx
  exact ⟨decFrame_fails_iff.mpr h,
    fun dev hd => (decAuth_fails_iff hd).mpr (decodeAuth_of_decodeFrame_error h dev)⟩

/-- Settles O21: a request carries `CONN_ADDR`, which DEC_AUTH compares with `DEV_ADDR`. -/
theorem loopbackIsAcceptedOnlyForEqualAddresses : Obligations.LoopbackIsAcceptedOnlyForEqualAddresses := by
  intro s conn dev code hc hd hlo hhi
  obtain ⟨f, hf, hb⟩ := encReq_completes hc ⟨hlo, hhi⟩
  have h := decodeFrame_requestFrame (known_iff_range.mpr ⟨hlo, hhi⟩) conn
  rw [← hb] at h
  refine ⟨f, hf, fun heq => ?_, fun hne => ?_⟩
  · subst heq
    exact ⟨_, (decAuth_completes_iff hd).mpr (decodeAuth_ok_iff.mpr ⟨h, rfl⟩)⟩
  · exact (decAuth_fails_iff hd).mpr (decodeAuth_of_addr_ne h hne)

end Sys2Proof.Machine

/-! ## Proofs: the byte codec (42_byte_codec.md)

Each operation presents the value of its pure function (`exec_u16be` to `exec_bit` here, `exec_scaled` and `exec_offscaled` of
Laws/Exec.lean for an exponent in its type). What that value is: `u16_eq_append`, `u32_eq_append` and `bit_eq_getLsbD` of the
laws, and the exact arithmetic of `fixedValue` and `offByte` here. -/

namespace Sys2Proof.Machine

/-! ### The operations every operand is in type for (R128) -/

theorem exec_u16be (h l : Byte) (s : State) : Completes (.u16be h l) s (.int (u16 h l)) := done_eq _ s

theorem exec_u32be (b0 b1 b2 b3 : Byte) (s : State) : Completes (.u32be b0 b1 b2 b3) s (.int (u32 b0 b1 b2 b3)) :=
  done_eq _ s

theorem exec_offbyte (raw off : Byte) (s : State) : Completes (.offbyte raw off) s (.int (offByte raw off)) :=
  done_eq _ s

theorem exec_bit (v idx : Byte) (s : State) : Completes (.bit v idx) s (.bool (bit v idx.toNat)) := done_eq _ s

/-! ### The values: exact differences, and fixed values as rationals (R5, R122 to R124) -/

theorem bit_of_ge_eight (v : Byte) {i : Nat} (hi : 8 ≤ i) : bit v i = false := if_pos hi

theorem offByte_add_offset (raw off : Byte) : offByte raw off + off.toNat = raw.toNat := Int.sub_add_cancel _ _

theorem offByte_neg_iff (raw off : Byte) : offByte raw off < 0 ↔ raw.toNat < off.toNat := by
  rw [offByte, sub_neg, Nat.cast_lt]

theorem offScaled_mantissa_add_offset (h l : Byte) (off : BitVec 16) (k : Nat) :
    (offScaled h l off k).mantissa + off.toNat = u16 h l := Int.sub_add_cancel _ _

/-- The scale of a fixed value is exactly `10^(-k)`. -/
theorem fixedValue_mul_scale (x : Fixed) : fixedValue x * 10 ^ x.exponent = x.mantissa :=
  div_mul_cancel₀ _ (by positivity)

/-- Two fixed values are one rational exactly when their mantissas agree over the common scale. -/
theorem fixedValue_eq_iff (x y : Fixed) :
    fixedValue x = fixedValue y ↔ x.mantissa * 10 ^ y.exponent = y.mantissa * 10 ^ x.exponent := by
  have hx : (10 : ℚ) ^ x.exponent ≠ 0 := by positivity
  have hy : (10 : ℚ) ^ y.exponent ≠ 0 := by positivity
  rw [fixedValue, fixedValue, div_eq_div_iff hx hy]
  norm_cast

/-! ### The statements -/

/-- Settles O22: the two positional sums are the concatenated bytes as one number. -/
theorem wordsAreBigEndian : Obligations.WordsAreBigEndian := by
  intro s b0 b1 b2 b3
  rw [← u16_eq_append, ← u32_eq_append]
  exact ⟨exec_u16be b0 b1 s, exec_u32be b0 b1 b2 b3 s⟩

/-- Settles O23: the mantissa is the 16-bit value, and `fixedValue_mul_scale` takes the scale off again. -/
theorem scaledIsExact : Obligations.ScaledIsExact := by
  intro s h l k hk
  rw [← u16_eq_append]
  exact ⟨scaled h l k.toNat, exec_scaled h l hk s, rfl, rfl, fixedValue_mul_scale (scaled h l k.toNat)⟩

/-- Settles O24: the mantissa is the exact difference, in the integers and so in the rationals. -/
theorem offscaledSubtractsWithoutWrapping : Obligations.OffscaledSubtractsWithoutWrapping := by
  intro s h l k off hk
  rw [← u16_eq_append]
  have hm := offScaled_mantissa_add_offset h l off k.toNat
  refine ⟨offScaled h l off k.toNat, exec_offscaled h l off hk s, hm, rfl, ?_⟩
  calc fixedValue (offScaled h l off k.toNat) * 10 ^ k.toNat + off.toNat
      = (offScaled h l off k.toNat).mantissa + off.toNat := by
        rw [← fixedValue_mul_scale (offScaled h l off k.toNat)]; rfl
    _ = u16 h l := by exact_mod_cast hm

/-- Settles O25, by what the exact difference is. -/
theorem offbyteSubtractsWithoutWrapping : Obligations.OffbyteSubtractsWithoutWrapping :=
  fun s raw off => ⟨offByte raw off, exec_offbyte raw off s, offByte_add_offset raw off, offByte_neg_iff raw off⟩

/-- Settles O26: the tested bit is `getLsbD`, which is false past the width as R125 is. -/
theorem bitTestsTheIndexedBit : Obligations.BitTestsTheIndexedBit := by
  intro s v idx
  rw [← bit_eq_getLsbD]
  exact exec_bit v idx s

/-- Settles O13: four operations complete on every operand; the two scales complete up to exponent 3 and are refused above. -/
theorem byteCodecIsTotal : Obligations.ByteCodecIsTotal := by
  intro s h l k b2 b3 off
  refine ⟨⟨_, exec_u16be h l s⟩, ⟨_, exec_u32be h l b2 b3 s⟩, ⟨_, exec_offbyte h l s⟩, ⟨_, exec_bit h l s⟩,
    fun hl => ?_, fun hk => ?_, fun hk => ?_⟩
  · rw [← bit_of_ge_eight h hl]
    exact exec_bit h l s
  · exact ⟨⟨_, exec_scaled h l hk s⟩, ⟨_, exec_offscaled h l off hk s⟩⟩
  · have hk := Nat.not_le_of_lt hk
    exact ⟨exec_scaled_refused h l hk s, exec_offscaled_refused h l off hk s⟩

/-- Settles O27: the conversion sees the rational only, and the hypothesis says that the two rationals are equal. -/
theorem equalFixedValuesGiveEqualHostNumbers : Obligations.EqualFixedValuesGiveEqualHostNumbers :=
  fun _ floatConv x y h => congrArg floatConv ((fixedValue_eq_iff x y).mpr h)

end Sys2Proof.Machine

/-! ## Proofs: frame counts, reassembly and the receive pipeline (43_multiframe.md)

FRAMECOUNT, REASM and RX_RESPONSE end as `frameCount`, `reassemble` and `receive` do (`framecount_completes`,
`reasm_completes_iff`, `rxResponse_completes_iff` and the lemmas beside them), so the statements are about these. REASM rests
on `sorted_ids_iff`: ids that are 1 to N in some order are 1 to N once sorted. RX_RESPONSE has one lemma for each check in the
order of R142; on valid frames it performs the command's profile operation (`exec_rxResponse_of_profileInstr`,
`exec_rxResponse_cellVoltages`, `exec_rxResponse_temperatures`). -/

namespace Sys2Proof.Machine

/-! ### FRAMECOUNT (R140) -/

theorem frameCount_of_ne {cmd : Command} (hv : cmd ≠ .cellVoltages) (ht : cmd ≠ .temperatures) (n : Nat) :
    frameCount cmd n = 1 := by
  cases cmd
  case cellVoltages => exact absurd rfl hv
  case temperatures => exact absurd rfl ht
  all_goals rfl

/-- The number FRAMECOUNT completes with, for the command whose code was given. -/
theorem exists_command_of_framecount {code n : Byte} {s : State} {N : Nat} (h : Completes (.framecount code n) s (.int N)) :
    ∃ cmd : Command, cmd.code = code ∧ N = frameCount cmd n.toNat := by
  obtain ⟨cmd, rfl, -⟩ := framecount_completes h
  exact ⟨cmd, rfl, Int.ofNat.inj (framecount_completes_iff.mp h)⟩

/-- Settles O28, by the command of the code. -/
theorem framecountIsTheCeiling : Obligations.FramecountIsTheCeiling := by
  intro s code n
  refine ⟨fun hlo hhi => ?_, fun hk => withCommand_unknown (known_eq_false_of_not_range hk) _⟩
  obtain ⟨cmd, rfl⟩ := exists_code_of_range ⟨hlo, hhi⟩
  refine ⟨frameCount cmd n.toNat, exec_framecount cmd n s, frameCount_le cmd n, fun hv => ?_, fun ht => ?_,
    fun hv ht => ?_⟩
  · obtain rfl : cmd = .cellVoltages := code_injective hv
    simp only [frameCount]
    omega
  · obtain rfl : cmd = .temperatures := code_injective ht
    simp only [frameCount]
    omega
  · exact frameCount_of_ne (fun h => hv (congrArg Command.code h)) (fun h => ht (congrArg Command.code h)) _

/-! ### REASM (R141) -/

theorem reassemble_of_perm {P : List Payload} {N : Nat} (h : (P.map seqId).Perm (List.range' 1 N)) :
    reassemble P N = .ok ((sortById P).flatMap dataRegion) := by
  rw [reassemble_eq, if_pos h]

theorem reassemble_of_not_perm {P : List Payload} {N : Nat} (h : ¬ (P.map seqId).Perm (List.range' 1 N)) :
    reassemble P N = .error .incompleteFrames := by
  rw [reassemble_eq, if_neg h]

/-- Settles O29: the sorted ids are 1 to N, so `dataRegion_in_stream` finds each data region in the stream. -/
theorem reasmOrdersBySequenceId : Obligations.ReasmOrdersBySequenceId := by
  intro s P N
  refine ⟨fun h => ?_, fun h => reasm_fails_iff.mpr (reassemble_of_not_perm h)⟩
  have hS := reassemble_of_perm h
  have hsorted := (sorted_ids_iff P N).mpr h
  refine ⟨_, reasm_completes_iff.mpr hS, (reassemble_length hS).1, fun p hp => ?_⟩
  exact (dataRegion_in_stream _ N 1 hsorted p ((sortById_perm P).mem_iff.mpr hp)).2

/-- Payloads whose ids are 1 to N are sorted strictly. -/
theorem sortById_pairwise_lt {P : List Payload} {N : Nat} (h : (P.map seqId).Perm (List.range' 1 N)) :
    (sortById P).Pairwise fun a b => seqId a < seqId b := by
  rw [← List.pairwise_map, (sorted_ids_iff P N).mpr h]
  exact List.pairwise_lt_range'

/-- Two arrival orders of the same payloads reassemble alike: ids that are 1 to N leave one sorted order. -/
theorem reassemble_of_payloads_perm {P Q : List Payload} (hPQ : P.Perm Q) (N : Nat) : reassemble P N = reassemble Q N := by
  have hids := hPQ.map seqId
  by_cases h : (Q.map seqId).Perm (List.range' 1 N)
  · have hsort : sortById P = sortById Q :=
      ((sortById_perm P).trans (hPQ.trans (sortById_perm Q).symm)).eq_of_pairwise
        (fun _ _ _ _ hab hba => absurd hab hba.asymm) (sortById_pairwise_lt (hids.trans h)) (sortById_pairwise_lt h)
    rw [reassemble_of_perm (hids.trans h), reassemble_of_perm h, hsort]
  · rw [reassemble_of_not_perm fun hP => h (hids.symm.trans hP), reassemble_of_not_perm h]

/-- Settles O30: REASM ends as `reassemble` does. -/
theorem reasmIgnoresArrivalOrder : Obligations.ReasmIgnoresArrivalOrder := by
  intro s P Q N hPQ
  change finish ((reassemble P N).map .stream) s = finish ((reassemble Q N).map .stream) s
  rw [reassemble_of_payloads_perm hPQ N]

/-! ### The checks of RX_RESPONSE (R142, R204) -/

section
variable {b : Bool} {dev : Byte} {cmd : Command} {n : Nat} {B : Bytes}

/-- Step 1 of R142: the length. -/
theorem receive_of_short (hl : B.length < 13 * frameCount cmd n) :
    receive b dev cmd n B = .error .invalidResponseLength := if_pos hl

/-- Step 2: the error of the first chunk that DEC_AUTH rejects. -/
theorem receive_of_rejected {k : Nat} {e : ErrorKind} (hl : 13 * frameCount cmd n ≤ B.length) (hk : k < frameCount cmd n)
    (he : decodeAuth dev (chunk B k) = .error e) (hbefore : ∀ j < k, ∃ d, decodeAuth dev (chunk B j) = .ok d) :
    receive b dev cmd n B = .error e := by
  have hsplit : List.range (frameCount cmd n) = List.range k ++ k :: (List.range (frameCount cmd n)).drop (k + 1) := by
    conv_lhs => rw [← List.take_append_drop k (List.range _), List.drop_eq_getElem_cons (by simpa using hk)]
    rw [List.take_range, min_eq_left hk.le, List.getElem_range]
  have herr : decodeChunks dev ((List.range (frameCount cmd n)).map (chunk B)) = .error e := by
    rw [hsplit, List.map_append, List.map_cons]
    refine decodeChunks_append_error (fun C hC => ?_) he _
    obtain ⟨j, hj, rfl⟩ := List.mem_map.mp hC
    exact hbefore j (List.mem_range.mp hj)
  rcases receive_cases b dev cmd n B with ⟨h, -⟩ | ⟨-, ⟨e', he', hr⟩ | ⟨ds, hds, -⟩⟩
  · omega
  · cases herr.symm.trans he'
    exact hr
  · cases herr.symm.trans hds

/-- Each of a list of chunks that all decode gives one of the frames. -/
theorem exists_decoded_of_mem {L : List Bytes} {ds : List DecodedFrame} (h : decodeChunks dev L = .ok ds) {C : Bytes}
    (hC : C ∈ L) : ∃ d ∈ ds, decodeAuth dev C = .ok d := by
  obtain ⟨i, hi, rfl⟩ := List.mem_iff_getElem.mp hC
  have hds := decodeChunks_ok h
  exact ⟨_, List.getElem_mem _, hds.get hi (hds.length_eq ▸ hi)⟩

/-- Step 3: every chunk decodes, and one carries another command's code. -/
theorem receive_of_other_code {k : Nat} {d : DecodedFrame} (hl : 13 * frameCount cmd n ≤ B.length)
    (hk : k < frameCount cmd n) (hd : decodeAuth dev (chunk B k) = .ok d) (hne : d.code ≠ cmd.code)
    (hall : ∀ j < frameCount cmd n, ∃ d, decodeAuth dev (chunk B j) = .ok d) :
    receive b dev cmd n B = .error .incompleteFrames := by
  rcases receive_cases b dev cmd n B with ⟨h, -⟩ | ⟨-, ⟨e, he, -⟩ | ⟨ds, hds, ⟨-, hr⟩ | ⟨hcodes, -⟩⟩⟩
  · omega
  · obtain ⟨C, hC, hCe⟩ := decodeChunks_error he
    obtain ⟨j, hj, rfl⟩ := List.mem_map.mp hC
    obtain ⟨d', hd'⟩ := hall j (List.mem_range.mp hj)
    cases hd'.symm.trans hCe
  · exact hr
  · obtain ⟨d', hmem, hd'⟩ := exists_decoded_of_mem hds (List.mem_map_of_mem (List.mem_range.mpr hk))
    cases hd.symm.trans hd'
    exact absurd (hcodes d hmem) hne

end

/-- Settles O31: every computation's end is an outcome, and the length is the first check. -/
theorem rxShortBufferIsReportedFirst : Obligations.RxShortBufferIsReportedFirst := by
  intro s code n dev B N hd hN
  obtain ⟨cmd, rfl, rfl⟩ := exists_command_of_framecount hN
  refine ⟨?_, fun hl => (rxResponse_fails_iff hd).mpr (receive_of_short hl)⟩
  rw [exec_rxResponse cmd n B hd]
  obtain ⟨o, ho, -⟩ := finish_eq_next ((receive s.cellvPadSkip dev cmd n.toNat B).map .record) s
  exact ⟨o, ho⟩

/-- Settles O32, by step 2 and step 3 of the pipeline. -/
theorem rxDecodesEveryChunkBeforeComparingCodes : Obligations.RxDecodesEveryChunkBeforeComparingCodes := by
  intro s code n dev B N k hd hN hl hk
  obtain ⟨cmd, rfl, rfl⟩ := exists_command_of_framecount hN
  have haccepted : ∀ j, (∃ c p, Completes (.decAuth (chunk B j)) s (.authenticated c p)) →
      ∃ d, decodeAuth dev (chunk B j) = .ok d :=
    fun j ⟨c, p, h⟩ => ⟨⟨c, dev, p⟩, (decAuth_completes_iff hd).mp h⟩
  refine ⟨fun e he hbefore => ?_, fun c p hc hne hall => ?_⟩
  · exact (rxResponse_fails_iff hd).mpr
      (receive_of_rejected hl hk ((decAuth_fails_iff hd).mp he) fun j hj => haccepted j (hbefore j hj))
  · exact (rxResponse_fails_iff hd).mpr
      (receive_of_other_code hl hk ((decAuth_completes_iff hd).mp hc) hne fun j hj => haccepted j (hall j hj))

/-- Settles O33: both buffers are refused alike while `DEV_ADDR` is unset, and `receive_append` drops the surplus otherwise. -/
theorem rxIgnoresBytesPastTheFrames : Obligations.RxIgnoresBytesPastTheFrames := by
  intro s code n N A B hN hA
  obtain ⟨cmd, rfl, rfl⟩ := exists_command_of_framecount hN
  rcases s.devAddr.unset_or_set with hd | ⟨dev, hd⟩
  · rw [exec_rxResponse_unset cmd n _ hd, exec_rxResponse_unset cmd n _ hd]
  · rw [exec_rxResponse cmd n _ hd, exec_rxResponse cmd n _ hd, receive_append _ dev cmd _ hA]

/-! ### Streams after REASM (R145) -/

/-- A stream of `N` whole regions has six data bytes a region, or seven, in the two readings of C2. -/
theorem le_dataBytes_length {S : Bytes} {N : Nat} (hS : S.length = 7 * N) (b : Bool) : 6 * N ≤ (dataBytes b S).length := by
  cases b with
  | false => rw [dataBytes_false]; omega
  | true => rw [dataBytes_true, (dropPads_spec S).1]; omega

/-- Three cells a frame are six data bytes. -/
theorem pCellv_completes_of_reassemble {P : List Payload} {n : Byte} {S : Bytes}
    (h : reassemble P ((n.toNat + 2) / 3) = .ok S) (s : State) :
    ∃ l, Completes (.pCellv S n) s (.record (.cellVoltages l)) ∧ l.length = n.toNat := by
  have hlen := le_dataBytes_length (reassemble_length h).1 s.cellvPadSkip
  exact ⟨_, pCellv_completes_iff.mpr (profileCellv_of_le (by omega)), by simp⟩

/-- Seven sensors a frame are the region's seven bytes. -/
theorem pCellt_completes_of_reassemble {P : List Payload} {n : Byte} {S : Bytes}
    (h : reassemble P ((n.toNat + 6) / 7) = .ok S) (s : State) :
    ∃ l, Completes (.pCellt S n) s (.record (.cellTemperatures l)) ∧ l.length = n.toNat := by
  have hlen := (reassemble_length h).1
  exact ⟨_, pCellt_completes_iff.mpr (profileCellt_of_le (by omega)), by simp⟩

/-- Settles O36, by the length of a reassembled stream. -/
theorem reassembledStreamIsLongEnough : Obligations.ReassembledStreamIsLongEnough := by
  intro s P n S
  exact ⟨fun h => pCellv_completes_of_reassemble (reasm_completes_iff.mp h) s,
    fun h => pCellt_completes_of_reassemble (reasm_completes_iff.mp h) s⟩

/-! ### RX_RESPONSE on valid frames (R142 step 4, R169) -/

/-- The profile operation of a single-frame command on a payload (R64, R169). -/
def profileInstr (p : Payload) (n : Byte) : Command → Option Instr
  | .stateOfCharge => some (.pSoc p)
  | .cellVoltageLimits => some (.pCvlim p)
  | .cellTemperatureLimits => some (.pCtlim p)
  | .mosfetStatus => some (.pMosfet p)
  | .status => some (.pStatus p)
  | .cellVoltages => none
  | .temperatures => none
  | .balanceStates => some (.pBal p n)
  | .failures => some (.pFail p)

theorem finish_map_map {α : Type} (r : Except ErrorKind α) (f : α → Response) (s : State) :
    finish ((r.map f).map Result.record) s = finish (r.map fun a => .record (f a)) s := by
  cases r <;> rfl

section
variable {s : State} {dev : Byte} (hd : s.devAddr = .set dev) (n : Byte)
include hd

/-- RX_RESPONSE on whole valid frames ends as the profile's computation on their payloads does. -/
theorem exec_rxResponse_validFrames {cmd : Command} {P : List Payload} (hP : P.length = frameCount cmd n.toNat)
    (extra : Bytes) : exec (.rxResponse cmd.code n (P.flatMap (validFrame dev cmd.code) ++ extra)) s =
      finish ((decodePayloads s.cellvPadSkip cmd n.toNat P).map .record) s := by
  rw [exec_rxResponse cmd n _ hd, receive_validFrames _ dev cmd _ P extra hP]

/-- On one valid frame RX_RESPONSE is the command's profile operation. -/
theorem exec_rxResponse_of_profileInstr {cmd : Command} {p : Payload} {i : Instr} (hi : profileInstr p n cmd = some i)
    (extra : Bytes) : exec (.rxResponse cmd.code n (validFrame dev cmd.code p ++ extra)) s = exec i s := by
  have hN : frameCount cmd n.toNat = 1 := frameCount_of_ne (by rintro rfl; cases hi) (by rintro rfl; cases hi) _
  have hx := exec_rxResponse_validFrames hd n (P := [p]) hN.symm extra
  rw [List.flatMap_singleton] at hx
  rw [hx]
  cases cmd
  case mosfetStatus => cases hi; exact finish_map_map (profileMosfet p) .mosfetStatus s
  case balanceStates => cases hi; exact finish_map_map (profileBal p n.toNat) .balanceStates s
  all_goals cases hi <;> rfl

/-- On valid frames of CellVoltages RX_RESPONSE is P_CELLV on the reassembled stream. -/
theorem exec_rxResponse_cellVoltages {P : List Payload} {S : Bytes} (hS : reassemble P ((n.toNat + 2) / 3) = .ok S)
    (extra : Bytes) : exec (.rxResponse 0x95#8 n (P.flatMap (validFrame dev 0x95#8) ++ extra)) s = exec (.pCellv S n) s := by
  have hx := exec_rxResponse_validFrames hd n (cmd := .cellVoltages) (reassemble_length hS).2 extra
  simp only [decodePayloads, frameCount, hS] at hx
  exact hx.trans (finish_map_map (profileCellv s.cellvPadSkip S n.toNat) .cellVoltages s)

/-- On valid frames of Temperatures RX_RESPONSE is P_CELLT on the reassembled stream. -/
theorem exec_rxResponse_temperatures {P : List Payload} {S : Bytes} (hS : reassemble P ((n.toNat + 6) / 7) = .ok S)
    (extra : Bytes) : exec (.rxResponse 0x96#8 n (P.flatMap (validFrame dev 0x96#8) ++ extra)) s = exec (.pCellt S n) s := by
  have hx := exec_rxResponse_validFrames hd n (cmd := .temperatures) (reassemble_length hS).2 extra
  simp only [decodePayloads, frameCount, hS] at hx
  exact hx.trans (finish_map_map (profileCellt S n.toNat) .cellTemperatures s)

/-- On valid frames of a multi-frame command an error of the reassembly is RX_RESPONSE's. -/
theorem rxResponse_fails_of_reassemble {cmd : Command} (hcmd : cmd = .cellVoltages ∨ cmd = .temperatures)
    {P : List Payload} (hP : P.length = frameCount cmd n.toNat) {e : ErrorKind}
    (he : reassemble P (frameCount cmd n.toNat) = .error e) (extra : Bytes) :
    Fails (.rxResponse cmd.code n (P.flatMap (validFrame dev cmd.code) ++ extra)) s e := by
  refine (rxResponse_fails_iff hd).mpr ?_
  rw [receive_validFrames _ dev cmd _ P extra hP]
  rcases hcmd with rfl | rfl <;> simp only [decodePayloads, he]

end

/-- Settles O34: RX_RESPONSE is the profile operation (`exec_rxResponse_of_profileInstr`), which ends as its computation does. -/
theorem rxOfOneValidFrameIsTheProfile : Obligations.RxOfOneValidFrameIsTheProfile := by
  intro s dev n p extra hd
  have hprofile {cmd i} (hi : profileInstr p n cmd = some i) := exec_rxResponse_of_profileInstr hd n hi extra
  have hmosfet := hprofile (cmd := .mosfetStatus) rfl
  have hbal := hprofile (cmd := .balanceStates) rfl
  refine ⟨⟨.stateOfCharge (profileSoc p), rfl, hprofile (cmd := .stateOfCharge) rfl⟩,
    ⟨.cellVoltageLimits (profileCvlim p), rfl, hprofile (cmd := .cellVoltageLimits) rfl⟩,
    ⟨.cellTemperatureLimits (profileCtlim p), rfl, hprofile (cmd := .cellTemperatureLimits) rfl⟩,
    fun hle => ?_, fun hgt => ?_,
    ⟨.statusInformation (profileStatus p), rfl, hprofile (cmd := .status) rfl⟩,
    fun hle => ?_, fun hgt => ?_,
    ⟨.failureStatus (profileFail p), rfl, hprofile (cmd := .failures) rfl⟩⟩
  · obtain ⟨r, hr⟩ := profileMosfet_of_le hle
    have h := pMosfet_completes_iff (s := s).mpr hr
    exact ⟨_, h, hmosfet.trans h⟩
  · have h := pMosfet_fails_iff (s := s).mpr (profileMosfet_of_gt hgt)
    exact ⟨h, hmosfet.trans h⟩
  · have h := pBal_completes_iff (s := s).mpr (profileBal_of_le p hle)
    exact ⟨_, h, hbal.trans h⟩
  · have h := pBal_fails_iff (s := s).mpr (profileBal_of_gt p hgt)
    exact ⟨h, hbal.trans h⟩

/-- Settles O35: ids that are 1 to N reassemble, and the profile finds the stream long enough; other ids do not. -/
theorem rxOfValidFramesReassembles : Obligations.RxOfValidFramesReassembles := by
  intro s dev n P extra hd
  refine ⟨fun h => ?_, fun h => ?_, fun hP h => ?_, fun hP h => ?_⟩
  · have hS := reassemble_of_perm h
    obtain ⟨l, hl, -⟩ := pCellv_completes_of_reassemble hS s
    exact ⟨_, _, reasm_completes_iff.mpr hS, hl, (exec_rxResponse_cellVoltages hd n hS extra).trans hl⟩
  · have hS := reassemble_of_perm h
    obtain ⟨l, hl, -⟩ := pCellt_completes_of_reassemble hS s
    exact ⟨_, _, reasm_completes_iff.mpr hS, hl, (exec_rxResponse_temperatures hd n hS extra).trans hl⟩
  · exact rxResponse_fails_of_reassemble hd n (.inl rfl) hP (reassemble_of_not_perm h) extra
  · exact rxResponse_fails_of_reassemble hd n (.inr rfl) hP (reassemble_of_not_perm h) extra

end Sys2Proof.Machine

/-! ## Proofs: the response profiles (44_response_profiles.md)

Each profile operation presents the value of its pure function (`exec_pSoc` to `exec_pFail` here, `pMosfet_completes_iff` to
`pBal_completes_iff` of Laws/Exec.lean for the four that can fail), so the statements are about the fields of these values.
A 16-bit field is the concatenation of its bytes (`scaled_eq_append`), a bit is `getLsbD` (`bit_eq_getLsbD`), and a list's
entry `i` is what the profile computes for `i` (`getElem?_map_range`). P_CELLV reads `dataBytes`, the stream in either reading
of C2; `dropPads_spec` says where each data byte stands. -/

namespace Sys2Proof.Machine

/-! ### The profiles that always complete -/

section
variable (p : Payload) (s : State)

theorem exec_pSoc : Completes (.pSoc p) s (.record (.stateOfCharge (profileSoc p))) := done_eq _ s

theorem exec_pCvlim : Completes (.pCvlim p) s (.record (.cellVoltageLimits (profileCvlim p))) := done_eq _ s

theorem exec_pCtlim : Completes (.pCtlim p) s (.record (.cellTemperatureLimits (profileCtlim p))) := done_eq _ s

theorem exec_pStatus : Completes (.pStatus p) s (.record (.statusInformation (profileStatus p))) := done_eq _ s

theorem exec_pFail : Completes (.pFail p) s (.record (.failureStatus (profileFail p))) := done_eq _ s

end

/-! ### The profiles that can fail -/

theorem exec_pCellv {b : Bool} {s : State} (hb : s.cellvPadSkip = b) (S : Bytes) (n : Byte) :
    exec (.pCellv S n) s = finish ((profileCellv b S n.toNat).map fun l => .record (.cellVoltages l)) s := by
  subst hb
  rfl

theorem exec_pCellt (S : Bytes) (n : Byte) (s : State) :
    exec (.pCellt S n) s = finish ((profileCellt S n.toNat).map fun l => .record (.cellTemperatures l)) s := rfl

theorem exec_pBal (p : Payload) (n : Byte) (s : State) :
    exec (.pBal p n) s = finish ((profileBal p n.toNat).map fun l => .record (.balanceStates l)) s := rfl

/-! ### The values of the fields -/

theorem scaled_eq_append (h l : Byte) (k : Nat) : scaled h l k = ⟨((h ++ l).toNat : Int), k⟩ := by
  rw [← u16_eq_append, scaled]

theorem offScaled_eq_append (h l : Byte) (off : BitVec 16) (k : Nat) :
    offScaled h l off k = ⟨((h ++ l).toNat : Int) - off.toNat, k⟩ := by
  rw [← u16_eq_append, offScaled]

theorem offByte_temperatureOffset (b : Byte) : offByte b Config.temperatureOffset = (b.toNat : Int) - 40 := rfl

theorem profileMosfet_of_chargeState {p : Payload} {st : ChargeState} (h : chargeState p.b0 = .ok st) :
    profileMosfet p = .ok ⟨st, p.b1, p.b2, p.b3, ((p.b4 ++ p.b5 ++ p.b6 ++ p.b7).toNat : Int)⟩ := by
  rw [← u32_eq_append, profileMosfet, h]

theorem getElem?_map_range {α : Type} (f : Nat → α) {n i : Nat} (hi : i < n) : ((List.range n).map f)[i]? = some (f i) := by
  rw [List.getElem?_map, List.getElem?_range hi, Option.map_some]

/-- Flag `f` of P_FAIL by its byte and bit. -/
theorem profileFail_flag (p : Payload) {f : Nat} (hf : f < 56) :
    (profileFail p).flags[f]? = some ((payloadByte p (f / 8)).getLsbD (f % 8)) := by
  rw [← bit_eq_getLsbD]
  exact getElem?_map_range _ hf

/-- The payload as one 64-bit number, byte 0 the least significant (R168, C1). -/
def payloadWord (p : Payload) : BitVec 64 := p.b7 ++ p.b6 ++ p.b5 ++ p.b4 ++ p.b3 ++ p.b2 ++ p.b1 ++ p.b0

/-- P_BAL on at most 64 cells gives the bits of the payload in order. -/
theorem profileBal_eq_bits (p : Payload) {n : Nat} (hn : n ≤ 64) :
    profileBal p n = .ok ((List.range n).map (payloadWord p).getLsbD) := by
  rw [profileBal_of_le p hn]
  refine congrArg _ (List.map_congr_left fun i hi => ?_)
  have hi := List.mem_range.mp hi
  rw [bit_eq_getLsbD, payload_bit p (by omega), payloadWord]

/-- P_CELLV on enough data bytes gives two of them to each cell, in both readings of C2. -/
theorem pCellv_cells {b : Bool} {S : Bytes} {n : Byte} {s : State} (hb : s.cellvPadSkip = b)
    (h : 2 * n.toNat ≤ (dataBytes b S).length) :
    ∃ l, Completes (.pCellv S n) s (.record (.cellVoltages l)) ∧ l.length = n.toNat ∧ ∀ i < n.toNat, l[i]? =
      some ⟨(((dataBytes b S).getD (2 * i) 0#8 ++ (dataBytes b S).getD (2 * i + 1) 0#8).toNat : Int), 3⟩ := by
  subst hb
  refine ⟨_, pCellv_completes_iff.mpr (profileCellv_of_le h), by simp, fun i hi => ?_⟩
  rw [getElem?_map_range _ hi, scaled_eq_append]
  rfl

theorem pCellv_short {b : Bool} {S : Bytes} {n : Byte} {s : State} (hb : s.cellvPadSkip = b)
    (h : (dataBytes b S).length < 2 * n.toNat) : Fails (.pCellv S n) s .incompleteFrames := by
  subst hb
  exact pCellv_fails_iff.mpr (profileCellv_of_lt h)

/-! ### What the profiles do not read (R170) -/

theorem byteAt_congr {S T : Bytes} {i : Nat} (h : S[i]? = T[i]?) : byteAt S i = byteAt T i := by
  rw [byteAt, byteAt, List.getD_eq_getElem?_getD, List.getD_eq_getElem?_getD, h]

theorem profileBal_congr {p q : Payload} {n : Nat} (h : ∀ i < n, (payloadWord p).getLsbD i = (payloadWord q).getLsbD i) :
    profileBal p n = profileBal q n := by
  rcases Nat.lt_or_ge 64 n with hn | hn
  · rw [profileBal_of_gt p hn, profileBal_of_gt q hn]
  · rw [profileBal_eq_bits p hn, profileBal_eq_bits q hn]
    exact congrArg _ (List.map_congr_left fun i hi => h i (List.mem_range.mp hi))

theorem profileCellt_congr {S T : Bytes} {n : Nat} (hl : S.length = T.length) (h : ∀ i < n, S[i]? = T[i]?) :
    profileCellt S n = profileCellt T n := by
  rcases Nat.lt_or_ge S.length n with hn | hn
  · rw [profileCellt_of_lt hn, profileCellt_of_lt (hl ▸ hn)]
  · rw [profileCellt_of_le hn, profileCellt_of_le (hl ▸ hn)]
    exact congrArg _ (List.map_congr_left fun i hi => by rw [byteAt_congr (h i (List.mem_range.mp hi))])

/-- P_CELLV depends on the number of data bytes and, where they are enough, on the first `2 * n` of them. -/
theorem profileCellv_congr {b : Bool} {S T : Bytes} {n : Nat} (hl : (dataBytes b S).length = (dataBytes b T).length)
    (h : 2 * n ≤ (dataBytes b S).length → ∀ j < 2 * n, byteAt (dataBytes b S) j = byteAt (dataBytes b T) j) :
    profileCellv b S n = profileCellv b T n := by
  rcases Nat.lt_or_ge (dataBytes b S).length (2 * n) with hn | hn
  · rw [profileCellv_of_lt hn, profileCellv_of_lt (hl ▸ hn)]
  · rw [profileCellv_of_le hn, profileCellv_of_le (hl ▸ hn)]
    refine congrArg _ (List.map_congr_left fun i hi => ?_)
    have hi := List.mem_range.mp hi
    rw [h hn (2 * i) (by omega), h hn (2 * i + 1) (by omega)]

/-- With `CELLV_PAD_SKIP`, byte 6 of each 7-byte region is not read. -/
theorem profileCellv_padSkip_congr {S T : Bytes} {n : Nat} (hl : S.length = T.length)
    (h : ∀ i < 2 * n + 2 * n / 6, i % 7 ≠ 6 → S[i]? = T[i]?) : profileCellv true S n = profileCellv true T n := by
  obtain ⟨hlenS, hbyteS⟩ := dropPads_spec S
  obtain ⟨hlenT, hbyteT⟩ := dropPads_spec T
  refine profileCellv_congr (by simp only [dataBytes_true, hlenS, hlenT, hl]) fun hn j hj => ?_
  rw [dataBytes_true, hlenS] at hn
  calc byteAt (dropPads S) j = byteAt S (j + j / 6) := hbyteS j (by omega)
    _ = byteAt T (j + j / 6) := byteAt_congr (h _ (by omega) (by omega))
    _ = byteAt (dropPads T) j := (hbyteT j (by omega)).symm

/-! ### The statements -/

/-- Settles O39: the four fields of `profileSoc`. -/
theorem stateOfChargeFields : Obligations.StateOfChargeFields := by
  intro s p
  have h := exec_pSoc p s
  simp only [profileSoc, scaled_eq_append, offScaled_eq_append] at h
  exact h

/-- Settles O40: the fields of `profileCvlim` and `profileCtlim`. -/
theorem limitsFields : Obligations.LimitsFields := by
  intro s p
  have h := exec_pCvlim p s
  simp only [profileCvlim, scaled_eq_append] at h
  exact ⟨h, exec_pCtlim p s⟩

/-- Settles O41: `chargeState` decides, and the capacity is the last four bytes as one number. -/
theorem mosfetStatusFields : Obligations.MosfetStatusFields := by
  intro s p
  constructor
  · intro hle
    obtain ⟨st, hst, hnames⟩ := chargeState_of_le hle
    exact ⟨st, pMosfet_completes_iff.mpr (profileMosfet_of_chargeState hst), hnames⟩
  · exact fun hgt => pMosfet_fails_iff.mpr (profileMosfet_of_gt hgt)

/-- Settles O42: `bit` is `getLsbD`, and a byte is positive exactly when it is not zero. -/
theorem statusInformationFields : Obligations.StatusInformationFields := by
  intro s p
  have h := exec_pStatus p s
  simp only [profileStatus, bit_eq_getLsbD, decide_toNat_pos] at h
  exact h

/-- Settles O43: flag `f` by byte and bit is bit `f` of the backing word (`failWord_bit`). -/
theorem failureStatusFields : Obligations.FailureStatusFields := by
  intro s p
  refine ⟨profileFail p, exec_pFail p s, failWord_eq_append p, by simp [profileFail],
    fun f hf => ?_, fun j hj b hb => ?_, rfl⟩
  · rw [profileFail_flag p hf, failWord_bit p hf]
    rfl
  · rw [profileFail_flag p (by omega), show (8 * j + b) / 8 = j by omega, show (8 * j + b) % 8 = b by omega]
    rfl

/-- Settles O44: cells are pairs of data bytes, and `dropPads_spec` counts and places those of a padded stream. -/
theorem cellVoltagesOfAStream : Obligations.CellVoltagesOfAStream := by
  intro s S n
  refine ⟨fun hb => ⟨pCellv_short hb, pCellv_cells hb⟩, fun hb => ?_⟩
  obtain ⟨hlen, hbyte⟩ := dropPads_spec S
  rw [← hlen]
  refine ⟨pCellv_short hb, fun hn => ?_⟩
  obtain ⟨l, hl, hcount, hcells⟩ := pCellv_cells hb hn
  rw [hlen] at hn
  refine ⟨l, hl, hcount, fun i hi => ?_⟩
  rw [hcells i hi, dataBytes_true, hbyte (2 * i) (by omega), hbyte (2 * i + 1) (by omega)]

/-- Settles O45: entry `i` is byte `i` less the temperature offset. -/
theorem cellTemperaturesOfAStream : Obligations.CellTemperaturesOfAStream := by
  intro s S n
  refine ⟨fun h => pCellt_fails_iff.mpr (profileCellt_of_lt h),
    fun h => ⟨_, pCellt_completes_iff.mpr (profileCellt_of_le h), by simp, fun i hi => ?_⟩⟩
  rw [getElem?_map_range _ hi, offByte_temperatureOffset]
  rfl

/-- Settles O46: bit `i mod 8` of byte `i div 8` is bit `i` of the payload (`payload_bit`). -/
theorem balanceStatesOfAPayload : Obligations.BalanceStatesOfAPayload := by
  intro s p n
  exact ⟨fun h => pBal_fails_iff.mpr (profileBal_of_gt p h),
    fun h => ⟨_, pBal_completes_iff.mpr (profileBal_eq_bits p h), by simp, fun i hi => getElem?_map_range _ hi⟩⟩

/-- Settles O47: each profile's value is computed from the named bytes and bits alone (the congruence lemmas above). -/
theorem unnamedBytesNeverMatter : Obligations.UnnamedBytesNeverMatter := by
  intro s p q n S T
  refine ⟨fun h0 h1 h2 h3 => ?_, fun h0 h1 h2 h3 h4 => ?_, fun h0 h1 h2 h3 h4 h5 => ?_, fun h => ?_,
    fun hl h => ?_, fun hb hl h => ?_, fun hb hl h => ?_⟩
  · have hpq : profileCtlim p = profileCtlim q := by simp only [profileCtlim, h0, h1, h2, h3]
    rw [exec_pCtlim, exec_pCtlim, hpq]
  · have hpq : profileStatus p = profileStatus q := by simp only [profileStatus, h0, h1, h2, h3, h4]
    rw [exec_pStatus, exec_pStatus, hpq]
  · have hpq : profileCvlim p = profileCvlim q := by simp only [profileCvlim, h0, h1, h2, h3, h4, h5]
    rw [exec_pCvlim, exec_pCvlim, hpq]
  · rw [exec_pBal, exec_pBal, profileBal_congr h]
  · rw [exec_pCellt, exec_pCellt, profileCellt_congr hl h]
  · rw [exec_pCellv hb, exec_pCellv hb, profileCellv_congr (b := false) hl fun _ j hj => byteAt_congr (h j hj)]
  · rw [exec_pCellv hb, exec_pCellv hb, profileCellv_padSkip_congr hl h]

end Sys2Proof.Machine

/-! ## Proofs: outcomes and refusals (60_exceptions.md)

That the grounds of `RefusalGround` are the only ones was needed for sequences (`refusalGround_of_exec_refused`); here each of
them does refuse (`exec_refused_of_refusalGround`), and an exchange is refused for its two registers only. An error presented
is the error of the operation's computation (`error_of_outcomeOf_finish_map`), so R200's column follows from the kinds that
each computation gives. -/

namespace Sys2Proof.Machine

/-! ### What refuses an operation (R73, R128, R203, R221) -/

theorem exec_refused_of_not_wellFormed {i : Instr} (hw : i.wellFormed = false) (s : State) :
    ∃ r, exec i s = .refused r := by
  cases i
  case encReq | framecount | rxResponse => exact ⟨_, withCommand_unknown hw _⟩
  case scaled h l k => exact ⟨_, exec_scaled_refused h l (of_decide_eq_false hw) s⟩
  case offscaled h l off k => exact ⟨_, exec_offscaled_refused h l off (of_decide_eq_false hw) s⟩
  all_goals cases hw

/-- Where the rest of an operation is refused for every command, the operation is refused for every code. -/
theorem withCommand_refused_of_forall {go : Command → Answer} {r : Refusal} (h : ∀ cmd, go cmd = .refused r) (c : Byte) :
    ∃ r', withCommand c go = .refused r' := by
  rcases withCommand_cases c go with ⟨-, hx⟩ | ⟨cmd, -, hx⟩
  · exact ⟨_, hx⟩
  · exact ⟨r, hx.trans (h cmd)⟩

/-- Each of R203's grounds refuses the operation. -/
theorem exec_refused_of_refusalGround {i : Instr} {s : State} (h : RefusalGround i s) : ∃ r, exec i s = .refused r := by
  rcases h with hw | ⟨⟨code, rfl⟩, hc⟩ | ⟨⟨F, rfl⟩ | ⟨code, n, B, rfl⟩, hd⟩
  · exact exec_refused_of_not_wellFormed hw s
  · exact withCommand_refused_of_forall (fun _ => withConnAddr_unset hc _) code
  · exact ⟨_, withDevAddr_unset hd _⟩
  · exact withCommand_refused_of_forall (fun _ => withDevAddr_unset hd _) code

/-- Settles O10 by `exec_configured`, at the state itself. -/
theorem operationsAnswerWhenConfigured : Obligations.OperationsAnswerWhenConfigured := by
  intro s conn dev i hc hd hi hw
  obtain ⟨o, ho⟩ := exec_configured hc hd hi hw
  exact ⟨o, ho s (sameConfig_refl s)⟩

/-! ### What refuses a wire command (R221, R225) -/

section
variable {s : State} {conn : Byte} {cmd : Command} {n : Nat} (hc : s.connAddr = .set conn)
include hc

/-- R225 step 5 with `DEV_ADDR` unset. -/
theorem exchangeStep_devAddr_unset (hd : s.devAddr = .unset) (hw : s.linkEvent.written = 13)
    (hl : 13 * frameCount cmd n ≤ (s.linkRx ++ s.linkEvent.reply).length) :
    exchangeStep cmd n s = .refused .devAddrUnset := by
  rw [exchangeStep_read hc hw hl]
  exact withDevAddr_unset (s := (afterSend s conn cmd).awaitResponse (frameCount cmd n)) hd _

/-- With both registers set an exchange ends, in whichever way (log 27). -/
theorem exchangeStep_answers_of_set {dev : Byte} (hd : s.devAddr = .set dev) : ∃ t, exchangeStep cmd n s = .next t := by
  rcases exchangeStep_cases cmd n s with
    ⟨hu, -⟩ | ⟨conn, -, ⟨-, hx⟩ | hx | ⟨hu, -⟩ | ⟨dev, -, ⟨e, -, hx⟩ | ⟨r, -, hx⟩⟩⟩
  · cases hc.symm.trans hu
  · exact ⟨_, hx⟩
  · exact ⟨_, hx⟩
  · cases hd.symm.trans hu
  · exact ⟨_, hx⟩
  · exact ⟨_, hx⟩

/-- An exchange that does not come to read `DEV_ADDR` ends whether it is set or not (log 27). -/
theorem exchangeStep_answers_of_unread (h : s.linkEvent.written ≠ 13 ∨
    (s.linkRx ++ s.linkEvent.reply).length < 13 * frameCount cmd n) : ∃ t, exchangeStep cmd n s = .next t := by
  by_cases hw : s.linkEvent.written = 13
  · exact ⟨_, exchangeStep_timeout hc hw (h.resolve_left (not_not_intro hw))⟩
  · exact ⟨_, exchangeStep_shortWrite hc hw cmd n⟩

end

/-- Settles O11: an operation is refused exactly on R203's grounds, and a wire command by its exchange, along R225's steps. -/
theorem operationsRefuseExactlyWhen : Obligations.OperationsRefuseExactlyWhen := by
  refine ⟨fun s i hi => ⟨fun ⟨r, h⟩ => refusalGround_of_exec_refused hi h, exec_refused_of_refusalGround⟩,
    fun s cmd n N hN => ?_⟩
  obtain rfl : N = frameCount cmd n.toNat := Int.ofNat.inj (framecount_completes_iff.mp hN)
  rw [exec_commandInstr]
  refine ⟨fun hu => exchangeStep_unset hu cmd n.toNat, fun conn hc => ⟨exchangeStep_devAddr_unset hc, ?_⟩⟩
  rintro (⟨dev, hd⟩ | h)
  · exact exchangeStep_answers_of_set hc hd
  · exact exchangeStep_answers_of_unread hc h

/-! ### Where an error comes from (R26, R201) -/

section
variable {s : State} {e : ErrorKind} {o : OpOutcome}

theorem outcomeOf_done_ne_err {v : Result} : outcomeOf (done v s) ≠ some (.err e) := nofun

theorem error_of_outcomeOf_finish_map {α : Type} {c : Except ErrorKind α} {f : α → Result}
    (h : outcomeOf (finish (c.map f) s) = some (.err e)) : c = .error e := by
  cases c with
  | ok a => cases h
  | error e' => cases h; rfl

theorem exists_command_of_outcomeOf {c : Byte} {go : Command → Answer} (h : outcomeOf (withCommand c go) = some o) :
    ∃ cmd : Command, cmd.code = c ∧ outcomeOf (go cmd) = some o := by
  rcases withCommand_cases c go with ⟨-, hx⟩ | ⟨cmd, hcode, hx⟩ <;> rw [hx] at h
  · cases h
  · exact ⟨cmd, hcode, h⟩

theorem exists_connAddr_of_outcomeOf {go : Byte → Answer} (h : outcomeOf (withConnAddr s go) = some o) :
    ∃ conn, outcomeOf (go conn) = some o := by
  rcases withConnAddr_cases s go with ⟨-, hx⟩ | ⟨conn, -, hx⟩ <;> rw [hx] at h
  · cases h
  · exact ⟨conn, h⟩

theorem exists_devAddr_of_outcomeOf {go : Byte → Answer} (h : outcomeOf (withDevAddr s go) = some o) :
    ∃ dev, outcomeOf (go dev) = some o := by
  rcases withDevAddr_cases s go with ⟨-, hx⟩ | ⟨dev, -, hx⟩ <;> rw [hx] at h
  · cases h
  · exact ⟨dev, h⟩

theorem outcomeOf_withExponent_ne_err {k : Byte} {f : Nat → Result} :
    outcomeOf (withExponent k fun k => done (f k) s) ≠ some (.err e) := by
  by_cases hk : k.toNat ≤ 3
  · rw [withExponent_le hk]
    exact outcomeOf_done_ne_err
  · rw [withExponent_gt hk]
    nofun

/-! ### R200's column "raised by" -/

/-- DEC_AUTH may raise what DEC_FRAME may, since it passes its errors on (R103). -/
theorem mayRaise_of_decodeFrame_error {F : Bytes} (h : decodeFrame F = .error e) :
    mayRaise e (.decFrame F) ∧ mayRaise e (.decAuth F) := by
  rcases decodeFrame_error h with ⟨rfl, -⟩ | ⟨-, rfl | rfl⟩
  · exact ⟨trivial, trivial⟩
  · exact ⟨trivial, trivial⟩
  · exact ⟨trivial, trivial⟩

theorem mayRaise_of_decodeAuth_error {dev : Byte} {F : Bytes} (h : decodeAuth dev F = .error e) :
    mayRaise e (.decAuth F) := by
  rcases decodeAuth_error h with h | ⟨-, -, -, rfl⟩
  · exact (mayRaise_of_decodeFrame_error h).2
  · trivial

theorem mayRaise_of_receive_error {b : Bool} {dev n : Byte} {cmd : Command} {B : Bytes}
    (h : receive b dev cmd n.toNat B = .error e) : mayRaise e (.rxResponse cmd.code n B) := by
  rcases receive_error h with rfl | rfl | rfl | rfl | ⟨rfl, rfl⟩
  · trivial
  · trivial
  · trivial
  · trivial
  · exact rfl

/-- An error an operation of the block presents is of a kind that R200 gives it. -/
theorem mayRaise_of_outcomeOf_exec {i : Instr} (hi : i.isOperation = true) (h : outcomeOf (exec i s) = some (.err e)) :
    mayRaise e i := by
  cases i
  case encReq code =>
    obtain ⟨cmd, -, h⟩ := exists_command_of_outcomeOf h
    obtain ⟨conn, h⟩ := exists_connAddr_of_outcomeOf h
    exact absurd h outcomeOf_done_ne_err
  case decFrame F => exact (mayRaise_of_decodeFrame_error (error_of_outcomeOf_finish_map h)).1
  case decAuth F =>
    obtain ⟨dev, h⟩ := exists_devAddr_of_outcomeOf h
    exact mayRaise_of_decodeAuth_error (error_of_outcomeOf_finish_map h)
  case scaled a b k => exact absurd h (outcomeOf_withExponent_ne_err (f := fun k => .fixed (scaled a b k)))
  case offscaled a b off k => exact absurd h (outcomeOf_withExponent_ne_err (f := fun k => .fixed (offScaled a b off k)))
  case framecount code n =>
    obtain ⟨cmd, -, h⟩ := exists_command_of_outcomeOf h
    exact absurd h outcomeOf_done_ne_err
  case reasm P N => cases reassemble_error (error_of_outcomeOf_finish_map h); trivial
  case rxResponse code n B =>
    obtain ⟨cmd, rfl, hgo⟩ := exists_command_of_outcomeOf h
    obtain ⟨dev, hgo⟩ := exists_devAddr_of_outcomeOf hgo
    exact mayRaise_of_receive_error (error_of_outcomeOf_finish_map hgo)
  case pMosfet p => cases profileMosfet_error (error_of_outcomeOf_finish_map h); trivial
  case pCellv S n => cases profileCellv_error (error_of_outcomeOf_finish_map h); trivial
  case pCellt S n => cases profileCellt_error (error_of_outcomeOf_finish_map h); trivial
  case pBal p n => cases profileBal_error (error_of_outcomeOf_finish_map h); trivial
  case chksum | u16be | u32be | offbyte | bit | pSoc | pCvlim | pCtlim | pStatus | pFail =>
    exact absurd h outcomeOf_done_ne_err
  all_goals cases hi

end

/-- Settles O37 by `mayRaise_of_outcomeOf_exec`; the table gives `TransmitFailed` to no operation. -/
theorem errorKindsComeFromTheirOperations : Obligations.ErrorKindsComeFromTheirOperations := by
  intro i s t e hi hx h
  exact mayRaise_of_outcomeOf_exec hi (by rw [hx]; exact h)

/-- Settles O38, by the two tables of codes. -/
theorem outcomeCodesAreThoseOfTheTable : Obligations.OutcomeCodesAreThoseOfTheTable := ⟨fun _ => rfl, rfl⟩

/-! ### Who changes the configuration (R23, R213, R220) -/

/-- No instruction, operation or wire command, changes the configuration. -/
theorem exec_sameConfig {i : Instr} {s t : State} (h : exec i s = .next t) : s.sameConfig t := by
  rcases commandInstr_or_isOperation i with ⟨cmd, n, rfl⟩ | hi
  · rw [exec_commandInstr] at h
    obtain ⟨hconn, hdev, hpad, -⟩ := exchangeStep_next h
    exact ⟨hconn.symm, hdev.symm, hpad.symm⟩
  · obtain ⟨o, -, rfl⟩ := exec_operation_next hi h
    exact ⟨rfl, rfl, rfl⟩

/-- Settles O57, by the host's next action: a configuration write changes its register, a reset both registers, and an
instruction nothing of the configuration (`exec_sameConfig`). -/
theorem onlyTheHostChangesTheConfiguration : Obligations.OnlyTheHostChangesTheConfiguration := by
  intro s t h
  rcases step_cases s with ⟨-, hx⟩ | ⟨r, v, rest, hp, hx⟩ | ⟨f, rest, hp, hx⟩ | ⟨-, -, e, -, -, hx⟩ |
    ⟨-, -, i, -, -, hx⟩ <;> rw [hx] at h
  · cases h
    exact ⟨rfl, .inl rfl, .inl rfl⟩
  · cases h
    cases r with
    | connAddr => exact ⟨rfl, .inr (.inl ⟨v, rest, hp, rfl⟩), .inl rfl⟩
    | devAddr => exact ⟨rfl, .inl rfl, .inr (.inl ⟨v, rest, hp, rfl⟩)⟩
  · cases h
    exact ⟨rfl, .inr (.inr ⟨f, rest, hp, rfl⟩), .inr (.inr ⟨f, rest, hp, rfl⟩)⟩
  · cases h
  · obtain ⟨hconn, hdev, hpad⟩ := exec_sameConfig h
    exact ⟨hpad.symm, .inl hconn.symm, .inl hdev.symm⟩

end Sys2Proof.Machine

/-! ## Proofs: reset, unset registers and the host's exchange (70_reset_and_hazards.md)

A wire command is one exchange (`exec_commandInstr`). What it leaves on the link and in its phase is said once for each way
that R225's steps can go: `exchangeStep_next_of_shortWrite`, `exchangeStep_next_of_timeout` and `exchangeStep_next_of_read`.
When what the link gives first is a response that RX_RESPONSE accepts, the whole next state is
`exec_commandInstr_of_rxResponse`. -/

namespace Sys2Proof.Machine

/-! ### Reset (R220, R31) -/

/-- Settles O8: the action is taken from the sequence, then reset is asserted. -/
theorem resetLeavesTheRegistersUnset : Obligations.ResetLeavesTheRegistersUnset := by
  refine ⟨⟨rfl, rfl⟩, fun s inFlight rest h => ?_⟩
  have hstep : step s = .next (s.popAction.assertReset inFlight) := by simp [step, h]
  rw [hstep, popAction_eq h]
  rfl

/-- Settles O60: after reset no outcome is presented, and the phase is `Idle`. -/
theorem resetMeetsTheInvariant : Obligations.ResetMeetsTheInvariant := ⟨nofun, trivial⟩

/-! ### Unset registers (R221) -/

/-- An operation whose rest is refused for every command is refused for the same reason, unless its code is unknown. -/
theorem withCommand_refused_of_known {go : Command → Answer} {r : Refusal} (h : ∀ cmd, go cmd = .refused r) (c : Byte) :
    ∃ r', withCommand c go = .refused r' ∧ (known c = true → r' = r) := by
  rcases withCommand_cases c go with ⟨hk, hx⟩ | ⟨cmd, -, hx⟩
  · exact ⟨_, hx, fun hk' => nomatch hk.symm.trans hk'⟩
  · exact ⟨r, hx.trans (h cmd), fun _ => rfl⟩

/-- Settles O9: the readers check their register behind the code at most, and an operation that reads no register has none
of R203's grounds left (`refusalGround_of_exec_refused`). -/
theorem unsetRegisterRefusesItsReaders : Obligations.UnsetRegisterRefusesItsReaders := by
  intro s
  refine ⟨fun hc => withCommand_refused_of_known fun _ => withConnAddr_unset hc _,
    fun hd => ⟨fun F => withDevAddr_unset hd _,
      fun code n B => withCommand_refused_of_known (fun _ => withDevAddr_unset hd _) code⟩,
    fun i hi hw hreq hauth hrx => ?_⟩
  rcases exec_answersByConfig hi s with ⟨r, hr⟩ | ⟨o, -, hn⟩
  · rcases refusalGround_of_exec_refused hi (hr s (sameConfig_refl s)) with
      h | ⟨⟨code, rfl⟩, -⟩ | ⟨⟨F, rfl⟩ | ⟨code, n, B, rfl⟩, -⟩
    · cases hw.symm.trans h
    · exact absurd rfl (hreq code)
    · exact absurd rfl (hauth F)
    · exact absurd rfl (hrx code n B)
  · exact ⟨o, hn s (sameConfig_refl s)⟩

/-! ### How an exchange ends (R223, R225) -/

section
variable {s t : State} {conn : Byte} {cmd : Command} {n : Nat} (hc : s.connAddr = .set conn)
  (h : exchangeStep cmd n s = .next t)
include hc h

/-- R225 step 2 fails: what is on the link, with all that arrives, is drained. -/
theorem exchangeStep_next_of_shortWrite (hw : s.linkEvent.written ≠ 13) :
    t.exchange = .failed (.error .transmitFailed) ∧
      t.linkRx = (s.linkRx ++ s.linkEvent.reply ++ s.linkEvent.late).drop 100 := by
  cases h.symm.trans (exchangeStep_shortWrite hc hw cmd n)
  exact ⟨rfl, rfl⟩

/-- R225 step 4 fails: the drain takes what the read left (log 10). -/
theorem exchangeStep_next_of_timeout (hw : s.linkEvent.written = 13)
    (hl : (s.linkRx ++ s.linkEvent.reply).length < 13 * frameCount cmd n) :
    t.exchange = .failed .timeout ∧
      t.linkRx = ((s.linkRx ++ s.linkEvent.reply).drop s.linkEvent.takenByTimeout ++ s.linkEvent.late).drop 100 := by
  cases h.symm.trans (exchangeStep_timeout hc hw hl)
  exact ⟨rfl, rfl⟩

/-- R225 step 6: the exchange ends as RX_RESPONSE's computation on the bytes read does, and an error drains the link. -/
theorem exchangeStep_next_of_read (hw : s.linkEvent.written = 13)
    (hl : 13 * frameCount cmd n ≤ (s.linkRx ++ s.linkEvent.reply).length) :
    ∃ dev, s.devAddr = .set dev ∧
      ((∃ e, receive s.cellvPadSkip dev cmd n ((s.linkRx ++ s.linkEvent.reply).take (13 * frameCount cmd n)) = .error e ∧
          t.outcome = some (.err e) ∧ t.exchange = .failed (.error e) ∧
          t.linkRx = ((s.linkRx ++ s.linkEvent.reply).drop (13 * frameCount cmd n) ++ s.linkEvent.late).drop 100) ∨
        ∃ r, receive s.cellvPadSkip dev cmd n ((s.linkRx ++ s.linkEvent.reply).take (13 * frameCount cmd n)) = .ok r ∧
          t.outcome = some (.ok (.record r)) ∧ t.exchange = .decoded r ∧
          t.linkRx = (s.linkRx ++ s.linkEvent.reply).drop (13 * frameCount cmd n) ++ s.linkEvent.late) := by
  rcases s.devAddr.unset_or_set with hd | ⟨dev, hd⟩
  · cases h.symm.trans (exchangeStep_devAddr_unset hc hd hw hl)
  refine ⟨dev, hd, ?_⟩
  cases hr : receive s.cellvPadSkip dev cmd n ((s.linkRx ++ s.linkEvent.reply).take (13 * frameCount cmd n)) with
  | error e =>
    cases h.symm.trans (exchangeStep_error hc hd hw hl hr)
    exact .inl ⟨e, rfl, rfl, rfl, rfl⟩
  | ok r =>
    cases h.symm.trans (exchangeStep_ok hc hd hw hl hr)
    exact .inr ⟨r, rfl, rfl, rfl, rfl⟩

end

/-- Settles O50, by the step of R225 that fails; after the read, what fails is RX_RESPONSE's computation. -/
theorem failedExchangeDrainsTheLink : Obligations.FailedExchangeDrainsTheLink := by
  intro s conn n cmd N hc hN
  obtain rfl : N = frameCount cmd n.toNat := Int.ofNat.inj (framecount_completes_iff.mp hN)
  rw [exec_commandInstr]
  refine ⟨fun hw => ?_, fun hw hl => ?_, fun hw hl dev e hd he => ?_⟩
  · obtain ⟨t, ht⟩ := exchangeStep_answers_of_unread hc (cmd := cmd) (n := n.toNat) (.inl hw)
    exact ⟨t, ht, exchangeStep_next_of_shortWrite hc ht hw⟩
  · obtain ⟨t, ht⟩ := exchangeStep_answers_of_unread hc (.inr hl)
    exact ⟨t, ht, exchangeStep_next_of_timeout hc ht hw hl⟩
  · exact ⟨_, exchangeStep_error hc hd hw hl ((rxResponse_fails_iff hd).mp he), rfl, rfl⟩

/-- Settles O51: the operations end as the computations that the exchange performs, and RX_RESPONSE's decides after the read. -/
theorem wireCommandRunsTheThreeOperations : Obligations.WireCommandRunsTheThreeOperations := by
  intro s conn dev n cmd hc hd
  obtain ⟨t, ht⟩ := exchangeStep_answers_of_set (cmd := cmd) (n := n.toNat) hc hd
  obtain ⟨-, -, -, -, -, ⟨conn', hc', htx⟩, -⟩ := exchangeStep_next ht
  cases hc.symm.trans hc'
  rw [← encodeRequest_bytes] at htx
  obtain ⟨o, ho, -⟩ := finish_eq_next ((receive s.cellvPadSkip dev cmd n.toNat
    ((s.linkRx ++ s.linkEvent.reply).take (13 * frameCount cmd n.toNat))).map .record) s
  refine ⟨encodeRequest conn cmd.code, frameCount cmd n.toNat, o, t, exec_encReq cmd hc, exec_framecount cmd n s,
    (exec_rxResponse cmd n _ hd).trans ho, (exec_commandInstr cmd n s).trans ht, htx, fun hw hl => ?_⟩
  obtain ⟨dev', hd', ⟨e, hr, hout, hex, -⟩ | ⟨r, hr, hout, hex, -⟩⟩ := exchangeStep_next_of_read hc ht hw hl <;>
    cases hd.symm.trans hd' <;> rw [hr] at ho
  · cases withOutcome_inj ho
    exact ⟨hout, .inr ⟨e, rfl, hex⟩⟩
  · cases withOutcome_inj ho
    exact ⟨hout, .inl ⟨r, rfl, hex⟩⟩

/-- Settles O52: `exchangeStep_next` says what every exchange leaves alone, and the link is as the step of R225 that ended it
left it. -/
theorem wireCommandFrame : Obligations.WireCommandFrame := by
  intro s t cmd n N hN h
  obtain rfl : N = frameCount cmd n.toNat := Int.ofNat.inj (framecount_completes_iff.mp hN)
  rw [exec_commandInstr] at h
  obtain ⟨hconn, hdev, hpad, hpending, hevents, ⟨conn, hc, htx⟩, -⟩ := exchangeStep_next h
  refine ⟨hconn, hdev, hpad, hpending, hevents, ⟨_, htx, List.length_take_le' ..⟩,
    fun hw => (exchangeStep_next_of_shortWrite hc h hw).2,
    fun hw hl => (exchangeStep_next_of_timeout hc h hw hl).2, fun hw hl => ?_⟩
  obtain ⟨-, -, ⟨e, -, -, hex, hrx⟩ | ⟨r, -, -, hex, hrx⟩⟩ := exchangeStep_next_of_read hc h hw hl
  · exact .inr ⟨⟨e, hex⟩, hrx⟩
  · exact .inl ⟨⟨r, hex⟩, hrx⟩

/-! ### Exchanges that end in a record (R225, R144) -/

section
variable {s : State} {conn dev n : Byte} {cmd : Command} {buf rest : Bytes} {r : Response}

theorem devAddr_of_replyWaits (h : s.replyWaits conn dev buf rest) : s.devAddr = .set dev := h.2.1

/-- When RX_RESPONSE accepts what stands on the link, exactly its `13 * N` bytes are read, and the record is returned. -/
theorem exec_commandInstr_of_rxResponse (h : s.replyWaits conn dev buf rest) (hl : buf.length = 13 * frameCount cmd n.toNat)
    (hr : Completes (.rxResponse cmd.code n (buf ++ rest)) s (.record r)) :
    exec (commandInstr cmd n) s = .next (s.afterExchange (requestFrame conn cmd.code) rest r
      ((afterRead s conn cmd n.toNat).completeExchange dev r).countCache) := by
  rw [exec_commandInstr, ← completeExchange_eq_afterExchange h hl r]
  obtain ⟨hc, hd, hw, hb⟩ := h
  rw [rxResponse_completes_iff hd, receive_append _ dev cmd _ hl] at hr
  apply exchangeStep_ok hc hd hw
  · rw [hb, List.length_append, hl]
    exact Nat.le_add_right ..
  · rwa [hb, ← hl, List.take_left]

/-- Every command but Status leaves the count cache (R29). -/
theorem exec_commandInstr_of_rxResponse_ne_status (hne : cmd ≠ .status) (h : s.replyWaits conn dev buf rest)
    (hl : buf.length = 13 * frameCount cmd n.toNat) (hr : Completes (.rxResponse cmd.code n (buf ++ rest)) s (.record r)) :
    exec (commandInstr cmd n) s = .next (s.afterExchange (requestFrame conn cmd.code) rest r s.countCache) := by
  rw [exec_commandInstr_of_rxResponse h hl hr]
  rcases completeExchange_countCache (afterRead s conn cmd n.toNat) dev r with hcc | ⟨i, rfl, -⟩
  · rw [hcc]
    rfl
  · exact absurd (receive_statusInformation ((rxResponse_completes_iff (devAddr_of_replyWaits h)).mp hr)) hne

theorem frameCount_of_profileInstr {p : Payload} {i : Instr} (hi : profileInstr p n cmd = some i) :
    frameCount cmd n.toNat = 1 :=
  frameCount_of_ne (by rintro rfl; cases hi) (by rintro rfl; cases hi) _

/-- A single-frame command but Status returns what its profile operation completes with. -/
theorem exec_commandInstr_of_profileInstr {p : Payload} {i : Instr} (hne : cmd ≠ .status)
    (hi : profileInstr p n cmd = some i) (hr : Completes i s (.record r))
    (h : s.replyWaits conn dev (validFrame dev cmd.code p) rest) :
    exec (commandInstr cmd n) s = .next (s.afterExchange (requestFrame conn cmd.code) rest r s.countCache) := by
  apply exec_commandInstr_of_rxResponse_ne_status hne h
  · rw [validFrame_length, frameCount_of_profileInstr hi]
  · exact (exec_rxResponse_of_profileInstr (devAddr_of_replyWaits h) n hi rest).trans hr

/-- Status returns the record of P_STATUS, and its two counts fill the cache (R29). -/
theorem exec_cmdStatus_of_validFrame {p : Payload} (h : s.replyWaits conn dev (validFrame dev 0x94#8 p) rest) :
    exec .cmdStatus s = .next (s.afterExchange (requestFrame conn 0x94#8) rest (.statusInformation (profileStatus p))
      (some ⟨dev, p.b0, p.b1⟩)) := by
  have hrx := exec_rxResponse_of_profileInstr (devAddr_of_replyWaits h) 0#8 (cmd := .status) (p := p) rfl rest
  exact exec_commandInstr_of_rxResponse (cmd := .status) h rfl (hrx.trans (exec_pStatus p s))

theorem validFrames_length (dev code : Byte) (P : List Payload) : (P.flatMap (validFrame dev code)).length = 13 * P.length := by
  simp [List.length_flatMap, Nat.mul_comm]

/-- A multi-frame command returns what RX_RESPONSE completes with on its frames. -/
theorem exec_commandInstr_of_validFrames {P : List Payload} (hne : cmd ≠ .status)
    (h : s.replyWaits conn dev (P.flatMap (validFrame dev cmd.code)) rest) (hP : P.length = frameCount cmd n.toNat)
    (hr : Completes (.rxResponse cmd.code n (P.flatMap (validFrame dev cmd.code) ++ rest)) s (.record r)) :
    exec (commandInstr cmd n) s = .next (s.afterExchange (requestFrame conn cmd.code) rest r s.countCache) :=
  exec_commandInstr_of_rxResponse_ne_status hne h (by rw [validFrames_length, hP]) hr

end

/-- Settles O48: RX_RESPONSE on the one frame is the command's profile operation (`exec_rxResponse_of_profileInstr`), which
completes. -/
theorem singleFrameExchangeCompletes : Obligations.SingleFrameExchangeCompletes := by
  intro s conn dev n p rest
  refine ⟨fun h => ⟨_, exec_pSoc p s, ?_⟩, fun h => ⟨_, exec_pCvlim p s, ?_⟩, fun h => ⟨_, exec_pCtlim p s, ?_⟩,
    fun h hle => ?_, fun h => ⟨_, exec_pStatus p s, exec_cmdStatus_of_validFrame h⟩, fun h hle => ?_,
    fun h => ⟨_, exec_pFail p s, ?_⟩⟩
  · exact exec_commandInstr_of_profileInstr (cmd := .stateOfCharge) (n := n) nofun rfl (exec_pSoc p s) h
  · exact exec_commandInstr_of_profileInstr (cmd := .cellVoltageLimits) (n := n) nofun rfl (exec_pCvlim p s) h
  · exact exec_commandInstr_of_profileInstr (cmd := .cellTemperatureLimits) (n := n) nofun rfl (exec_pCtlim p s) h
  · obtain ⟨r, hr⟩ := profileMosfet_of_le hle
    have hp := pMosfet_completes_iff (s := s).mpr hr
    exact ⟨_, hp, exec_commandInstr_of_profileInstr (cmd := .mosfetStatus) (n := n) nofun rfl hp h⟩
  · have hp := pBal_completes_iff (s := s).mpr (profileBal_of_le p hle)
    exact ⟨_, hp, exec_commandInstr_of_profileInstr (cmd := .balanceStates) nofun rfl hp h⟩
  · exact exec_commandInstr_of_profileInstr (cmd := .failures) (n := n) nofun rfl (exec_pFail p s) h

/-- Settles O49: the ids reassemble, and RX_RESPONSE is the profile on the stream, which is long enough. -/
theorem multiFrameExchangeCompletes : Obligations.MultiFrameExchangeCompletes := by
  intro s conn dev n P rest
  refine ⟨fun h hids => ?_, fun h hids => ?_⟩ <;> have hS := reassemble_of_perm hids
  · obtain ⟨l, hl, -⟩ := pCellv_completes_of_reassemble hS s
    have hrx := (exec_rxResponse_cellVoltages (devAddr_of_replyWaits h) n hS rest).trans hl
    exact ⟨_, _, reasm_completes_iff.mpr hS, hl,
      exec_commandInstr_of_validFrames (cmd := .cellVoltages) nofun h (reassemble_length hS).2 hrx⟩
  · obtain ⟨l, hl, -⟩ := pCellt_completes_of_reassemble hS s
    have hrx := (exec_rxResponse_temperatures (devAddr_of_replyWaits h) n hS rest).trans hl
    exact ⟨_, _, reasm_completes_iff.mpr hS, hl,
      exec_commandInstr_of_validFrames (cmd := .temperatures) nofun h (reassemble_length hS).2 hrx⟩

/-! ### A reply after `DEV_ADDR` was changed (R227) -/

/-- A configuration write and an operation that answers from its state then: the write presents no outcome (log 21), and the
operation the one it has with the new configuration. -/
theorem outcomesOver_cfg_devAddr {s : State} {new : Byte} {i : Instr} {rest : List HostAction} {o : OpOutcome}
    (hp : s.pending = .cfg .devAddr new :: .present (encode i) :: rest) (hi : i.isOperation = true)
    (hx : exec i { s with devAddr := .set new } = .next { s with devAddr := .set new, outcome := some o }) :
    outcomesOver 2 s = [none, some o] := by
  have hcfg := configurationWriteSetsOnlyItsRegister s .devAddr new _ hp
  have hop := (outcomeDependsOnConfigurationOnly i { s with devAddr := .set new }
    { s with pending := rest, outcome := none, devAddr := .set new } hi ⟨rfl, rfl, rfl⟩).1 o hx
  rw [outcomesOver_succ hcfg, outcomesOver_succ ((step_present rfl (decode_encode i)).trans hop)]
  rfl

/-- A response from another address than `DEV_ADDR` fails at its first frame, to whatever command. -/
theorem receive_validFrames_of_addr_ne (b : Bool) {old new : Byte} (hne : old ≠ new) {cmd : Command} {n : Nat}
    {P : List Payload} (hP : P.length = frameCount cmd n) (h0 : P ≠ []) (extra : Bytes) :
    receive b new cmd n (P.flatMap (validFrame old cmd.code) ++ extra) = .error .headerMismatch := by
  obtain ⟨p, Q, rfl⟩ := List.exists_cons_of_ne_nil h0
  have hfirst : chunk ((p :: Q).flatMap (validFrame old cmd.code) ++ extra) 0 = validFrame old cmd.code p := rfl
  refine receive_of_rejected (k := 0) ?_ ?_ ?_ nofun
  · rw [List.length_append, validFrames_length, hP]
    exact Nat.le_add_right ..
  · rw [← hP]
    exact Nat.succ_pos _
  · rw [hfirst]
    exact decodeAuth_of_addr_ne (decodeFrame_validFrame (known_code cmd) old p) hne

/-- The profile's computation raises no `HeaderMismatch`. -/
theorem decodePayloads_ne_headerMismatch (b : Bool) (cmd : Command) (n : Nat) (P : List Payload) :
    decodePayloads b cmd n P ≠ .error .headerMismatch :=
  fun h => by simpa using decodePayloads_error h

/-- Settles O58: RX_RESPONSE runs with the new `DEV_ADDR` (`outcomesOver_cfg_devAddr`), whose computation rejects the first
frame of another address, and on frames of its own ends as the profile's does. -/
theorem replyIsCheckedAgainstTheNewAddress : Obligations.ReplyIsCheckedAgainstTheNewAddress := by
  intro s new code n B rest hlo hhi hp
  obtain ⟨cmd, rfl⟩ := exists_code_of_range ⟨hlo, hhi⟩
  have hx := exec_rxResponse cmd n B (s := { s with devAddr := .set new }) rfl
  obtain ⟨o, ho, -⟩ := finish_eq_next ((receive s.cellvPadSkip new cmd n.toNat B).map .record)
    { s with devAddr := .set new }
  have hover := outcomesOver_cfg_devAddr hp rfl (hx.trans ho)
  refine ⟨⟨o, hx.trans ho, hover⟩, fun old P extra hN h0 hB => ?_⟩
  have hP : P.length = frameCount cmd n.toNat := Int.ofNat.inj (framecount_completes_iff.mp hN)
  subst hB
  refine ⟨fun hne => ?_, fun heq => ⟨o, hover, ?_⟩⟩
  · rw [receive_validFrames_of_addr_ne _ hne hP h0] at ho
    cases withOutcome_inj ho
    exact hover
  · rintro rfl
    subst heq
    rw [receive_validFrames _ old cmd _ P extra hP] at ho
    exact decodePayloads_ne_headerMismatch _ _ _ _ (finish_map_fails_iff.mp ho)

end Sys2Proof.Machine
